-- ==== Sys2Proof/Word.lean ====
section
/-! DEFINITION. The word and byte of the UM core (00_scope.md R7, R12, R17). -/

namespace Sys2Proof

/-- A platter, a register, an array cell, a handle, an offset or the finger: an unsigned 32-bit value (R7). -/
abbrev Word := BitVec 32

/-- What crosses OUT and IN, and the unit of a program image: 8 bits (00_scope.md R17, 70_reset_and_hazards.md R220). -/
abbrev Byte := BitVec 8

end Sys2Proof
end

