-- ==== Sys2Proof/Config.lean ====
section
/-! DEFINITION. What is fixed for a run from outside the core: the parameters and inputs of 00_scope.md R9, R10 and R11. -/

namespace Sys2Proof

/-- The host's answer to one Input request (00_scope.md R15): a byte or the end-of-input mark. -/
inductive Answer where
  | byte (b : Byte)
  | eof
deriving DecidableEq, Repr

/-- What determines a run (40_cycle.md R109): `CAPACITY` (00_scope.md R9; `none` is unbounded), `REG_RESET`
(R10), the program image in file order (70_reset_and_hazards.md R220), and the host's Input answers, first
answer first (R11, 46_io.md R185). -/
structure RunInputs where
  capacity : Option Nat
  regReset : Vector Word 8
  image : List Byte
  answers : List Answer
deriving DecidableEq, Repr

/-- `REG_RESET` of the model's one reset state. DESIGN CHOICE, unsafe (log entry 1): the spec leaves it open, so
no claim may rest on these zeros. -/
def Config.regReset : Vector Word 8 := Vector.replicate 8 0#32

/-- `CAPACITY` of the model's one reset state. DESIGN CHOICE, unsafe (log entry 2): the spec leaves it open. -/
def Config.capacity : Option Nat := none

/-- The run inputs of the model's one reset state: the image of 0 bytes (log entry 4) and no answer yet
(log entry 3). -/
def Config.defaultRun : RunInputs where
  capacity := Config.capacity
  regReset := Config.regReset
  image := []
  answers := []

end Sys2Proof
end

