-- ==== Sys2Proof/Syntax.lean ====
section
/-! DEFINITION. The instructions, one constructor for each row of spec/opcode_table.json, and the decoder's outputs. -/

namespace Sys2Proof

/-- A register index, 0 to 7 (00_scope.md R6, 30_encoding.md R82). -/
abbrev Reg := Fin 8

/-- The instructions with the fields each opcode uses, in the order A, B, C (30_encoding.md R89).
The last two constructors are the decoder's `INVALID(op)`; the opcode table gives each a row of its own. -/
inductive Instr where
  /-- opcode 0, Conditional Move (41_move.md R120) -/
  | cmov (a b c : Reg)
  /-- opcode 1, Array Index (42_array_access.md R130) -/
  | index (a b c : Reg)
  /-- opcode 2, Array Amendment (42_array_access.md R132) -/
  | amend (a b c : Reg)
  /-- opcode 3, Addition (43_alu.md R140) -/
  | add (a b c : Reg)
  /-- opcode 4, Multiplication (43_alu.md R142) -/
  | mul (a b c : Reg)
  /-- opcode 5, Division (43_alu.md R144) -/
  | div (a b c : Reg)
  /-- opcode 6, Not-And (43_alu.md R146) -/
  | nand (a b c : Reg)
  /-- opcode 7, Halt (44_control.md R160) -/
  | halt
  /-- opcode 8, Allocation (45_array_mgmt.md R170) -/
  | alloc (b c : Reg)
  /-- opcode 9, Abandonment (45_array_mgmt.md R173) -/
  | aband (c : Reg)
  /-- opcode 10, Output (46_io.md R180) -/
  | out (c : Reg)
  /-- opcode 11, Input (46_io.md R182) -/
  | inp (c : Reg)
  /-- opcode 12, Load Program (44_control.md R161) -/
  | loadp (b c : Reg)
  /-- opcode 13, Orthography (41_move.md R122); `imm` is the 25-bit field already zero-extended (30_encoding.md R84) -/
  | ortho (a : Reg) (imm : Word)
  /-- opcode 14, undefined (30_encoding.md R86) -/
  | illegal14
  /-- opcode 15, undefined (30_encoding.md R86) -/
  | illegal15
deriving DecidableEq, Repr

/-- The outputs of the decoder sub-block, named and sized as 00_scope.md R18 names and sizes them. -/
structure DecoderOut where
  op : BitVec 4
  a : BitVec 3
  b : BitVec 3
  c : BitVec 3
  ia : BitVec 3
  imm : Word
  valid : Bool
deriving DecidableEq, Repr

end Sys2Proof
end

