-- ==== Sys2Proof/WellFormed.lean ====
section
/-! DEFINITION. Which instructions an encoding exists for. -/

namespace Sys2Proof

/-- An instruction is well-formed when its operands fit their fields. Register indexes fit by their type;
an immediate is at most 2^25 - 1 (30_encoding.md R84). -/
def Instr.wf : Instr → Bool
  | .ortho _ imm => decide (imm.toNat < 2 ^ 25)
  | .cmov _ _ _ | .index _ _ _ | .amend _ _ _ | .add _ _ _ | .mul _ _ _ | .div _ _ _ | .nand _ _ _ => true
  | .halt | .alloc _ _ | .aband _ | .out _ | .inp _ | .loadp _ _ => true
  | .illegal14 | .illegal15 => true

end Sys2Proof
end

