-- ==== Sys2Proof/Decode.lean ====
section
/-! DEFINITION. The decoder (30_encoding.md R80 to R89), the encoder (R90, R92) and the image's byte order (20_memory.md R64). -/

namespace Sys2Proof

/-! ## The decoder -/

/-- `w[lo+2:lo]`, a 3-bit field (00_scope.md R12). -/
def regBits (w : Word) (lo : Nat) : BitVec 3 := w.extractLsb' lo 3

/-- `op = w[31:28]` (30_encoding.md R81). -/
def opField (w : Word) : BitVec 4 := w.extractLsb' 28 4

/-- `imm = zext_32(w[24:0])` (30_encoding.md R84). -/
def immField (w : Word) : Word := (w.extractLsb' 0 25).setWidth 32

/-- The decoder sub-block, a pure function of one platter (00_scope.md R18). DESIGN CHOICE (log entry 14): R82 and R84
give each field for the words of its own format only; the model drives every output from its bits for every word, so
on an opcode-13 word `a`, `b`, `c` and on any other word `ia`, `imm` are the bits that stand there. No instruction
reads an output of the other format. -/
def decoder (w : Word) : DecoderOut where
  op := opField w
  a := regBits w 6
  b := regBits w 3
  c := regBits w 0
  ia := regBits w 25
  imm := immField w
  valid := decide ((opField w).toNat ≤ 13)

/-- The instruction that the decoder's outputs select, with the fields its opcode uses (30_encoding.md R89). -/
def DecoderOut.instr (d : DecoderOut) : Instr :=
  match d.op.toNat with
  | 0 => .cmov d.a.toFin d.b.toFin d.c.toFin
  | 1 => .index d.a.toFin d.b.toFin d.c.toFin
  | 2 => .amend d.a.toFin d.b.toFin d.c.toFin
  | 3 => .add d.a.toFin d.b.toFin d.c.toFin
  | 4 => .mul d.a.toFin d.b.toFin d.c.toFin
  | 5 => .div d.a.toFin d.b.toFin d.c.toFin
  | 6 => .nand d.a.toFin d.b.toFin d.c.toFin
  | 7 => .halt
  | 8 => .alloc d.b.toFin d.c.toFin
  | 9 => .aband d.c.toFin
  | 10 => .out d.c.toFin
  | 11 => .inp d.c.toFin
  | 12 => .loadp d.b.toFin d.c.toFin
  | 13 => .ortho d.ia.toFin d.imm
  | 14 => .illegal14
  | _ => .illegal15

/-- The instruction of a platter (30_encoding.md R89). It is total (R88), reads no bit that the opcode does not
use (R87), and names an undefined opcode by its own constructor (R86). -/
def decode (w : Word) : Instr := (decoder w).instr

/-- The decoder's answer for a word of `nbits` bits, numbered as spec/opcode_table.json numbers them. Every
instruction is one 32-bit word (30_encoding.md R80): missing high bits are 0, and a longer word is none. -/
def decodeTableWord (nbits w : Nat) : Option Instr :=
  if nbits ≤ 32 then some (decode (BitVec.ofNat 32 (w % 2 ^ nbits))) else none

/-! ## The encoder -/

/-- `enc_std(op, A, B, C)` (30_encoding.md R90). -/
def encStd (op : Nat) (a b c : Reg) : Word :=
  (BitVec.ofNat 32 op <<< 28) ||| (BitVec.ofNat 32 a.val <<< 6) ||| (BitVec.ofNat 32 b.val <<< 3) ||| BitVec.ofNat 32 c.val

/-- `enc_imm(A, v)` (30_encoding.md R90). -/
def encImm (a : Reg) (v : Word) : Word :=
  (BitVec.ofNat 32 13 <<< 28) ||| (BitVec.ofNat 32 a.val <<< 25) ||| v

/-- The opcode of an instruction (30_encoding.md R89). -/
def Instr.opcode : Instr → Nat
  | .cmov _ _ _ => 0
  | .index _ _ _ => 1
  | .amend _ _ _ => 2
  | .add _ _ _ => 3
  | .mul _ _ _ => 4
  | .div _ _ _ => 5
  | .nand _ _ _ => 6
  | .halt => 7
  | .alloc _ _ => 8
  | .aband _ => 9
  | .out _ => 10
  | .inp _ => 11
  | .loadp _ _ => 12
  | .ortho _ _ => 13
  | .illegal14 => 14
  | .illegal15 => 15

/-- The word of an instruction, 0 in every unused bit and field (30_encoding.md R87, R90, R92). An undefined
opcode has no assembler form but `.word`; its word has the opcode and 0 elsewhere. -/
def encode : Instr → Word
  | .cmov a b c => encStd 0 a b c
  | .index a b c => encStd 1 a b c
  | .amend a b c => encStd 2 a b c
  | .add a b c => encStd 3 a b c
  | .mul a b c => encStd 4 a b c
  | .div a b c => encStd 5 a b c
  | .nand a b c => encStd 6 a b c
  | .halt => encStd 7 0 0 0
  | .alloc b c => encStd 8 0 b c
  | .aband c => encStd 9 0 0 c
  | .out c => encStd 10 0 0 c
  | .inp c => encStd 11 0 0 c
  | .loadp b c => encStd 12 0 b c
  | .ortho a imm => encImm a imm
  | .illegal14 => encStd 14 0 0 0
  | .illegal15 => encStd 15 0 0 0

/-! ## The image's byte order -/

/-- Four image bytes in file order as one word, the first byte highest (20_memory.md R64). -/
def wordOfBytes (k0 k1 k2 k3 : Byte) : Word :=
  (k0.setWidth 32 <<< 24) ||| (k1.setWidth 32 <<< 16) ||| (k2.setWidth 32 <<< 8) ||| k3.setWidth 32

/-- The words of an image, in file order (70_reset_and_hazards.md R220). An image whose length is not a multiple
of 4 is a load error (R221) and its last bytes make no word. -/
def imageWords : List Byte → List Word
  | k0 :: k1 :: k2 :: k3 :: rest => wordOfBytes k0 k1 k2 k3 :: imageWords rest
  | _ => []

end Sys2Proof
end

