-- ==== Sys2Proof/Machine/State.lean ====
section
/-! DEFINITION. The state of the machine as plain data (10_state.md), the canonical form of its memory, the reasons a step can stop, and reset. -/

namespace Sys2Proof.Machine

/-! ## Run state and fault record -/

/-- The run state (10_state.md R36). -/
inductive RunState where
  | running
  | halted
  | faulted
deriving DecidableEq, Repr

/-- Every fault of the spec, one constructor for each kind and sub-cause pair of 60_exceptions.md R191 and R192. -/
inductive Cause where
  /-- LoadError / NONE, at load only (70_reset_and_hazards.md R221) -/
  | loadError
  /-- DecodeError / NONE (60_exceptions.md R193) -/
  | decodeError
  /-- MemoryFault / INACTIVE_HANDLE: INDEX or AMEND (20_memory.md R57, R58) -/
  | inactiveHandle
  /-- MemoryFault / OFFSET_OOB: INDEX or AMEND (20_memory.md R57, R58) -/
  | offsetOob
  /-- MemoryFault / FETCH_OOB: the fetch (40_cycle.md R102) -/
  | fetchOob
  /-- MemoryFault / LOADP_INACTIVE: LOADP (20_memory.md R60) -/
  | loadpInactive
  /-- ArithmeticFault / NONE: DIV (43_alu.md R144) -/
  | divideByZero
  /-- ResourceFault / ABANDON_ZERO: ABAND (20_memory.md R59) -/
  | abandonZero
  /-- ResourceFault / ABANDON_INACTIVE: ABAND (20_memory.md R59) -/
  | abandonInactive
  /-- ResourceFault / EXHAUSTED: ALLOC or LOADP (20_memory.md R55, R60) -/
  | exhausted
  /-- IOFault / NONE: OUT (46_io.md R180) -/
  | outputRange
deriving DecidableEq, Repr

/-- The fault record (10_state.md R37). -/
structure FaultRecord where
  kind : BitVec 3
  sub : BitVec 3
  ffinger : Word
  fplatter : Word
deriving DecidableEq, Repr

/-- The record of a run without a fault, its reset value (10_state.md R37). -/
def FaultRecord.clear : FaultRecord where
  kind := 0
  sub := 0
  ffinger := 0
  fplatter := 0

/-! ## Arrays and the handle table -/

/-- One array (10_state.md R38, 20_memory.md R52): its length in words, and the words that are not 0 by rising
offset. An offset below `len` that is not listed holds 0, which is what a new array holds (R53), so an array of
any legal size is made and written out at once. -/
structure Arr where
  len : Nat
  cells : List (Nat × Word)
deriving DecidableEq, Repr

/-- The handle table (10_state.md R38). `array0` is T[0], which is active for the whole run; `slots` is T[1],
T[2], ..., `none` where a slot is inactive. The table length n of the spec is `slots.length + 1`. -/
structure Memory where
  array0 : Arr
  slots : List (Option Arr)
deriving DecidableEq, Repr

/-- The canonical form of an array: at most 2^32 - 1 words (20_memory.md R51), offsets strictly rising and inside
the array, and no listed word that an unlisted offset would read as. -/
abbrev Arr.wf (a : Arr) : Prop :=
  a.len < 2 ^ 32 ∧ a.cells.Pairwise (fun x y => x.1 < y.1) ∧ ∀ x ∈ a.cells, x.1 < a.len ∧ x.2 ≠ 0#32

/-- The canonical form of the memory: every array's, and a handle for every slot that fits 32 bits (20_memory.md R55). -/
abbrev Memory.wf (m : Memory) : Prop :=
  m.array0.wf ∧ (∀ o ∈ m.slots, ∀ a ∈ o, a.wf) ∧ m.slots.length < 2 ^ 32

/-! ## The state -/

/-- The state between two steps: the architectural state of 10_state.md (R30, R34, R36, R37, R38, R42), then the
run's parameters and inputs that the model holds with it (R109, log entries 2 and 3). -/
structure State where
  /-- r0 to r7 (R30) -/
  regs : Vector Word 8
  /-- the execution finger (R34) -/
  finger : Word
  /-- the run state (R36) -/
  run : RunState
  /-- the fault record (R37) -/
  fault : FaultRecord
  /-- the handle table and its arrays (R38) -/
  mem : Memory
  /-- the output record, oldest byte first (R42) -/
  output : List Byte
  /-- `CAPACITY` (00_scope.md R9), `none` when unbounded; no step writes it -/
  capacity : Option Nat
  /-- the Input answers not yet taken, next answer first (46_io.md R185) -/
  input : List Answer
deriving DecidableEq, Repr

/-- Why a step stops without a next state. The faults of the spec are not here: each is a next state whose run
state is Faulted (60_exceptions.md R200). -/
inductive Fault where
  /-- Raised by `step` when the run state is Halted: no step is enabled (40_cycle.md R107). Safe: nothing can be
  proved about a next state that the core does not take. -/
  | alreadyHalted
  /-- Raised by `step` when the run state is Faulted: no step is enabled (40_cycle.md R107). Safe, as above. -/
  | alreadyFaulted
deriving DecidableEq, Repr

/-- Why an instruction has no meaning. -/
inductive Refusal where
  /-- An arm of `exec` whose instruction has no meaning yet; no arm is one. Safe. -/
  | notModelled (mnemonic : String)
deriving DecidableEq, Repr

/-- What a step or a meaning answers. -/
abbrev Result := Host.Outcome State Fault Refusal

/-- The machine right after reset (70_reset_and_hazards.md R222), for the run inputs of `Config.defaultRun`:
registers at `REG_RESET`, finger 0, Running, the record clear, T[0] the words of the image (none), no other slot,
nothing sent. `State.resetWith` is the reset for any inputs. -/
def State.reset : State where
  regs := Config.regReset
  finger := 0
  run := .running
  fault := .clear
  mem := { array0 := { len := 0, cells := [] }, slots := [] }
  output := []
  capacity := Config.capacity
  input := []

end Sys2Proof.Machine
end

