-- ==== Sys2Proof/Machine/Flags.lean ====
section
/-! DEFINITION. The UM has no flags and no condition codes (10_state.md R43): an instruction that depends on a condition tests a register's value. These are the three tests. -/

namespace Sys2Proof.Machine

/-- CMOV's condition, `x[C] != 0` (41_move.md R120). -/
def condHolds (v : Word) : Bool := decide (v ≠ 0#32)

/-- DIV's check, `x[C] == 0` (43_alu.md R144). -/
def divisorIsZero (v : Word) : Bool := decide (v = 0#32)

/-- OUT's check, `x[C] > 255` (46_io.md R180). -/
def exceedsByte (v : Word) : Bool := decide (255 < v.toNat)

end Sys2Proof.Machine
end

