-- ==== Sys2Proof/Machine/Operands.lean ====
section
/-! DEFINITION. Reading and writing the operands: registers and the widening of a byte (10_state.md R30 to R32, 00_scope.md R12, R14). -/

namespace Sys2Proof.Machine

/-- `x[r]` (00_scope.md R14). Every register is an ordinary one, r0 too (10_state.md R30). -/
def State.readReg (s : State) (r : Reg) : Word := s.regs[r]

/-- `x[r] <- v` (00_scope.md R14). -/
def State.writeReg (s : State) (r : Reg) (v : Word) : State := { s with regs := s.regs.set r v }

/-- `zext_32(b)` of a byte (00_scope.md R12). -/
def zextByte (b : Byte) : Word := b.setWidth 32

/-- What IN writes for an answer: the byte zero-extended, or the end-of-input value (46_io.md R182). -/
def answerWord : Answer → Word
  | .byte b => zextByte b
  | .eof => 0xFFFFFFFF#32

end Sys2Proof.Machine
end

