-- ==== Sys2Proof/Machine/Ops.lean ====
section
/-! DEFINITION. The shared operations: the memory manager (20_memory.md), the fetch and the advance (40_cycle.md), and taking a fault (60_exceptions.md). -/

namespace Sys2Proof.Machine

/-! ## One array -/

/-- The word listed at offset `i`, 0 where none is (20_memory.md R53). -/
def cellsGet : List (Nat × Word) → Nat → Word
  | [], _ => 0#32
  | (j, u) :: cs, i => if j = i then u else cellsGet cs i

/-- Lists `v` at offset `i`, keeping offsets rising and listing no 0. -/
def cellsSet : List (Nat × Word) → Nat → Word → List (Nat × Word)
  | [], i, v => if v = 0#32 then [] else [(i, v)]
  | (j, u) :: cs, i, v =>
    if i < j then (if v = 0#32 then (j, u) :: cs else (i, v) :: (j, u) :: cs)
    else if i = j then (if v = 0#32 then cs else (i, v) :: cs)
    else (j, u) :: cellsSet cs i v

/-- The cells of the words `ws` at offsets `k`, `k + 1`, .... -/
def cellsOfWords : Nat → List Word → List (Nat × Word)
  | _, [] => []
  | k, w :: ws => if w = 0#32 then cellsOfWords (k + 1) ws else (k, w) :: cellsOfWords (k + 1) ws

/-- The array that holds the words `ws` in order. -/
def Arr.ofWords (ws : List Word) : Arr where
  len := ws.length
  cells := cellsOfWords 0 ws

/-- A new array of `size` words, each 0 (20_memory.md R53). -/
def Arr.zeros (size : Nat) : Arr where
  len := size
  cells := []

/-- The word at offset `i` of an array. -/
def Arr.read (a : Arr) (i : Nat) : Word := cellsGet a.cells i

/-- The array with `v` at offset `i`; its length stays (20_memory.md R52). -/
def Arr.write (a : Arr) (i : Nat) (v : Word) : Arr := { a with cells := cellsSet a.cells i v }

/-- The array with `v` at offset `i`, made longer if it does not reach there. No instruction does this: it places
a program's word from outside the machine (`State.withFetchWord`). -/
def Arr.place (a : Arr) (i : Nat) (v : Word) : Arr where
  len := max a.len (i + 1)
  cells := cellsSet a.cells i v

/-! ## The handle table -/

/-- The array of handle `h`, `none` when `h` is not active (10_state.md R38). -/
def Memory.lookup (m : Memory) : Nat → Option Arr
  | 0 => some m.array0
  | k + 1 => (m.slots[k]?).join

/-- `active(h)` (10_state.md R38). -/
def Memory.active (m : Memory) (h : Nat) : Bool := (m.lookup h).isSome

/-- `len(h)` of an active array (00_scope.md R14). -/
def Memory.lenOf (m : Memory) (h : Nat) : Option Nat := (m.lookup h).map Arr.len

/-- The word at the address (h, i), `none` where no word is (20_memory.md R50). -/
def Memory.wordAt (m : Memory) (h i : Nat) : Option Word :=
  match m.lookup h with
  | none => none
  | some a => if i < a.len then some (a.read i) else none

/-- The table with array `a` in the existing slot of handle `h`. -/
def Memory.replace (m : Memory) (h : Nat) (a : Arr) : Memory :=
  match h with
  | 0 => { m with array0 := a }
  | k + 1 => { m with slots := m.slots.set k (some a) }

/-- Words held by one slot. -/
def slotWords : Option Arr → Nat
  | none => 0
  | some a => a.len

/-- Words held by slots. -/
def slotsWords : List (Option Arr) → Nat
  | [] => 0
  | o :: os => slotWords o + slotsWords os

/-- `used`, the words of all active arrays (10_state.md R41). -/
def Memory.used (m : Memory) : Nat := m.array0.len + slotsWords m.slots

/-- `total > CAPACITY` (00_scope.md R9). -/
def exceeds (total : Nat) : Option Nat → Bool
  | none => false
  | some c => decide (c < total)

/-! ## The memory manager's operations: each answers its result or the cause of its fault -/

/-- The position in `slots` of the first inactive slot, or one past the last. -/
def firstFree : List (Option Arr) → Nat
  | [] => 0
  | none :: _ => 0
  | some _ :: os => firstFree os + 1

/-- The handle `allocate` takes: the lowest inactive slot from 1 up, else a new slot (20_memory.md R54). -/
def Memory.allocateHandle (m : Memory) : Nat := firstFree m.slots + 1

/-- Slots with array `a` at position `k`, appended when `k` is one past the last. -/
def placeSlot : List (Option Arr) → Nat → Arr → List (Option Arr)
  | [], _, a => [some a]
  | _ :: os, 0, a => some a :: os
  | o :: os, k + 1, a => o :: placeSlot os k a

/-- `allocate(size)` (20_memory.md R56): the new table and the handle. The handle is tested with `≤`; on every
state a run reaches it is at most 2^32, so this is the spec's `h == 2^32` (log entry 10). -/
def Memory.allocate (m : Memory) (capacity : Option Nat) (size : Word) : Except Cause (Memory × Word) :=
  if exceeds (m.used + size.toNat) capacity || decide (2 ^ 32 ≤ m.allocateHandle) then .error .exhausted
  else .ok ({ m with slots := placeSlot m.slots (firstFree m.slots) (Arr.zeros size.toNat) },
    BitVec.ofNat 32 m.allocateHandle)

/-- `index(h, i)` (20_memory.md R57). -/
def Memory.index (m : Memory) (h i : Word) : Except Cause Word :=
  match m.lookup h.toNat with
  | none => .error .inactiveHandle
  | some a => if i.toNat < a.len then .ok (a.read i.toNat) else .error .offsetOob

/-- `amend(h, i, v)` (20_memory.md R58). -/
def Memory.amend (m : Memory) (h i v : Word) : Except Cause Memory :=
  match m.lookup h.toNat with
  | none => .error .inactiveHandle
  | some a => if i.toNat < a.len then .ok (m.replace h.toNat (a.write i.toNat v)) else .error .offsetOob

/-- `abandon(h)` (20_memory.md R59). -/
def Memory.abandon (m : Memory) (h : Word) : Except Cause Memory :=
  match h.toNat with
  | 0 => .error .abandonZero
  | k + 1 =>
    match m.lookup (k + 1) with
    | none => .error .abandonInactive
    | some _ => .ok { m with slots := m.slots.set k none }

/-- `duplicate_into_zero(h)` (20_memory.md R60). -/
def Memory.duplicateIntoZero (m : Memory) (capacity : Option Nat) (h : Word) : Except Cause Memory :=
  if h = 0#32 then .ok m
  else
    match m.lookup h.toNat with
    | none => .error .loadpInactive
    | some a =>
      if exceeds (m.used - m.array0.len + a.len) capacity then .error .exhausted
      else .ok { m with array0 := a }

/-! ## Fetch, advance, and the state's other updates -/

/-- `T[0][finger]`, `none` when the finger is out of bounds (40_cycle.md R101, R102). -/
def State.fetch (s : State) : Option Word := s.mem.wordAt 0 s.finger.toNat

/-- The platter of the running step, 0 when the fetch is out of bounds (10_state.md R37). A step writes nothing
before its last check, so array 0 still holds it (log entry 9). -/
def State.platter (s : State) : Word := s.fetch.getD 0#32

/-- `finger <- (finger + 1) mod 2^32` (40_cycle.md R105). -/
def State.advance (s : State) : State := { s with finger := s.finger + 1#32 }

/-- `finger <- f` (44_control.md R161). -/
def State.setFinger (s : State) (f : Word) : State := { s with finger := f }

/-- `runstate <- r`. -/
def State.setRun (s : State) (r : RunState) : State := { s with run := r }

/-- The state with the table `m`. -/
def State.setMem (s : State) (m : Memory) : State := { s with mem := m }

/-- `emit(b)` (00_scope.md R15): the byte is appended to the output record (46_io.md R180). -/
def State.emit (s : State) (b : Byte) : State := { s with output := s.output ++ [b] }

/-- The state with the answers `as` still to come. -/
def State.setInput (s : State) (as : List Answer) : State := { s with input := as }

/-! ## Taking a fault -/

/-- The kind code (60_exceptions.md R191). -/
def Cause.kind : Cause → BitVec 3
  | .loadError => 1
  | .decodeError => 2
  | .inactiveHandle | .offsetOob | .fetchOob | .loadpInactive => 3
  | .divideByZero => 4
  | .abandonZero | .abandonInactive | .exhausted => 5
  | .outputRange => 6

/-- The sub-cause code (60_exceptions.md R192). -/
def Cause.sub : Cause → BitVec 3
  | .loadError | .decodeError | .divideByZero | .outputRange => 0
  | .inactiveHandle => 1
  | .offsetOob => 2
  | .fetchOob => 3
  | .loadpInactive => 4
  | .abandonZero => 1
  | .abandonInactive => 2
  | .exhausted => 3

/-- `raise` (00_scope.md R15, 60_exceptions.md R200): the run state becomes Faulted and the fault record takes the
codes, the finger and the platter of the faulting instruction; nothing else is written. There is no return from
a fault (R202). -/
def State.raise (s : State) (c : Cause) : State :=
  { s with run := .faulted, fault := { kind := c.kind, sub := c.sub, ffinger := s.finger, fplatter := s.platter } }

/-- How an instruction ends: with the state it computed, or with the fault it met, raised in the state it
started from (60_exceptions.md R200). Either way the machine has a next state. -/
def conclude (s : State) : Except Cause State → Result
  | .ok t => .next t
  | .error c => .next (s.raise c)

end Sys2Proof.Machine
end

