-- ==== Sys2Proof/Machine/Alu.lean ====
section
/-! DEFINITION. Arithmetic and logic: ADD, MUL, DIV and NAND (43_alu.md). The naturals of 00_scope.md R13 are computed with and narrowed at the end. -/

namespace Sys2Proof.Machine

/-- `(b + c) mod 2^32`. -/
def addWords (b c : Word) : Word := BitVec.ofNat 32 (b.toNat + c.toNat)

/-- `(b * c) mod 2^32`. -/
def mulWords (b c : Word) : Word := BitVec.ofNat 32 (b.toNat * c.toNat)

/-- `floor(b / c)`, for a divisor that is not 0. -/
def divWords (b c : Word) : Word := BitVec.ofNat 32 (b.toNat / c.toNat)

/-- `~(b & c)`. -/
def nandWords (b c : Word) : Word := ~~~(b &&& c)

/-- ADD (43_alu.md R140). -/
def execAdd (a b c : Reg) (s : State) : Result :=
  .next (s.writeReg a (addWords (s.readReg b) (s.readReg c))).advance

/-- MUL (43_alu.md R142). -/
def execMul (a b c : Reg) (s : State) : Result :=
  .next (s.writeReg a (mulWords (s.readReg b) (s.readReg c))).advance

/-- DIV (43_alu.md R144). -/
def execDiv (a b c : Reg) (s : State) : Result :=
  conclude s
    (if divisorIsZero (s.readReg c) then .error .divideByZero
     else .ok (s.writeReg a (divWords (s.readReg b) (s.readReg c))).advance)

/-- NAND (43_alu.md R146, R147). -/
def execNand (a b c : Reg) (s : State) : Result :=
  .next (s.writeReg a (nandWords (s.readReg b) (s.readReg c))).advance

end Sys2Proof.Machine
end

