-- ==== Sys2Proof/Machine/ArrayAccess.lean ====
section
/-! DEFINITION. Array access: INDEX and AMEND (42_array_access.md). -/

namespace Sys2Proof.Machine

/-- INDEX (42_array_access.md R130): the handle is x[B], the offset x[C]. -/
def execIndex (a b c : Reg) (s : State) : Result :=
  conclude s ((s.mem.index (s.readReg b) (s.readReg c)).map fun v => (s.writeReg a v).advance)

/-- AMEND (42_array_access.md R132): the handle is x[A], the offset x[B], the value x[C]. -/
def execAmend (a b c : Reg) (s : State) : Result :=
  conclude s ((s.mem.amend (s.readReg a) (s.readReg b) (s.readReg c)).map fun m => (s.setMem m).advance)

end Sys2Proof.Machine
end

