-- ==== Sys2Proof/Machine/ArrayMgmt.lean ====
section
/-! DEFINITION. Array management: ALLOC and ABAND (45_array_mgmt.md). -/

namespace Sys2Proof.Machine

/-- ALLOC (45_array_mgmt.md R170): the size is x[C], the handle goes to x[B]. -/
def execAlloc (b c : Reg) (s : State) : Result :=
  conclude s ((s.mem.allocate s.capacity (s.readReg c)).map fun r =>
    ((s.setMem r.1).writeReg b r.2).advance)

/-- ABAND (45_array_mgmt.md R173): the handle is x[C], which keeps its value. -/
def execAband (c : Reg) (s : State) : Result :=
  conclude s ((s.mem.abandon (s.readReg c)).map fun m => (s.setMem m).advance)

end Sys2Proof.Machine
end

