-- ==== Sys2Proof/Machine/Control.lean ====
section
/-! DEFINITION. Control transfer: HALT and LOADP (44_control.md), and the undefined opcodes (40_cycle.md R103). -/

namespace Sys2Proof.Machine

/-- HALT (44_control.md R160); its step advances the finger like any other but LOADP's (40_cycle.md R105). -/
def execHalt (s : State) : Result := .next (s.setRun .halted).advance

/-- LOADP (44_control.md R161): both registers are read first, and the finger is not advanced. -/
def execLoadp (b c : Reg) (s : State) : Result :=
  conclude s ((s.mem.duplicateIntoZero s.capacity (s.readReg b)).map fun m =>
    (s.setMem m).setFinger (s.readReg c))

/-- Opcode 14: DecodeError (30_encoding.md R86, 40_cycle.md R103). -/
def execIllegal14 (s : State) : Result := conclude s (.error .decodeError)

/-- Opcode 15: DecodeError (30_encoding.md R86, 40_cycle.md R103). -/
def execIllegal15 (s : State) : Result := conclude s (.error .decodeError)

end Sys2Proof.Machine
end

