-- ==== Sys2Proof/Machine/Io.lean ====
section
/-! DEFINITION. Console I/O: OUT and IN (46_io.md). -/

namespace Sys2Proof.Machine

/-- OUT (46_io.md R180): the value is never cut to 8 bits, a larger one faults. -/
def execOut (c : Reg) (s : State) : Result :=
  conclude s
    (if exceedsByte (s.readReg c) then .error .outputRange
     else .ok (s.emit ((s.readReg c).setWidth 8)).advance)

/-- IN (46_io.md R182): takes the host's next answer. With no answer yet the step waits, and a wait writes
nothing (R184): the state stays as it was, the finger on this IN. -/
def execInp (c : Reg) (s : State) : Result :=
  match s.input with
  | [] => .next s
  | r :: rest => .next ((s.setInput rest).writeReg c (answerWord r)).advance

end Sys2Proof.Machine
end

