-- ==== Sys2Proof/Machine/Move.lean ====
section
/-! DEFINITION. Register moves: CMOV and ORTHO (41_move.md). -/

namespace Sys2Proof.Machine

/-- CMOV (41_move.md R120). -/
def execCmov (a b c : Reg) (s : State) : Result :=
  if condHolds (s.readReg c) then .next (s.writeReg a (s.readReg b)).advance else .next s.advance

/-- ORTHO (41_move.md R122). -/
def execOrtho (a : Reg) (imm : Word) (s : State) : Result :=
  .next (s.writeReg a imm).advance

end Sys2Proof.Machine
end

