-- ==== Sys2Proof/Machine/HostInterface.lean ====
section
/-! DEFINITION. What the host does at the core's interfaces (00_scope.md R17): reset with an image, answers to Input, the STATUS outputs. -/

namespace Sys2Proof.Machine

/-- Whether an image is a LoadError (70_reset_and_hazards.md R221): its length is no multiple of 4, or it has
more words than an array may hold, or more than CAPACITY. -/
def loadRefused (p : RunInputs) : Bool :=
  decide (p.image.length % 4 ≠ 0) || decide (4 * (2 ^ 32 - 1) < p.image.length) ||
    exceeds (p.image.length / 4) p.capacity

/-- `reset(image)` (70_reset_and_hazards.md R222), from any state `s`. On a LoadError the rule stops before it
sets the table, so the table of `s` stays; no step runs to see it (log entry 7). -/
def State.resetWith (s : State) (p : RunInputs) : State :=
  if loadRefused p then
    { regs := p.regReset, finger := 0, run := .faulted,
      fault := { FaultRecord.clear with kind := Cause.loadError.kind, sub := Cause.loadError.sub },
      mem := s.mem, output := [], capacity := p.capacity, input := p.answers }
  else
    { regs := p.regReset, finger := 0, run := .running, fault := .clear,
      mem := { array0 := Arr.ofWords (imageWords p.image), slots := [] },
      output := [], capacity := p.capacity, input := p.answers }

/-- IN_RSP (00_scope.md R17): the host hands over one more answer (46_io.md R185). -/
def State.answer (s : State) (r : Answer) : State := { s with input := s.input ++ [r] }

/-- IN_REQ (00_scope.md R17): the core's next step is an IN, which asks the host for one answer (46_io.md R182). -/
def State.inputRequested (s : State) : Bool :=
  match s.run, s.fetch with
  | .running, some w => decide ((opField w).toNat = 11)
  | _, _ => false

/-- The core waits: it asks for an answer that has not arrived (40_cycle.md R106, 46_io.md R184). -/
def State.waiting (s : State) : Bool := s.inputRequested && s.input.isEmpty

/-- The run state on STATUS (10_state.md R36). -/
def RunState.code : RunState → BitVec 2
  | .running => 0
  | .halted => 1
  | .faulted => 2

/-- The STATUS outputs: the run state's code and the fault record (00_scope.md R17), and the finger of a run that
has halted (40_cycle.md R105, log entry 13). -/
structure Status where
  runState : BitVec 2
  record : FaultRecord
  haltFinger : Option Word
deriving DecidableEq, Repr

/-- What STATUS shows. DESIGN CHOICE (log entry 13): 00_scope.md R17 lists a finger on STATUS only on a fault, while
40_cycle.md R105 and D12 say that the finger after HALT is observed on STATUS; the model shows it in Halted too. -/
def State.status (s : State) : Status where
  runState := s.run.code
  record := s.fault
  haltFinger :=
    match s.run with
    | .halted => some s.finger
    | .running | .faulted => none

/-- Whether the host ends the process with exit status 0 (00_scope.md R17), once the run has ended; which other
number a fault gives is outside the core (92_eei_decisions.md D23). -/
def State.exitsZero (s : State) : Option Bool :=
  match s.run with
  | .running => none
  | .halted => some true
  | .faulted => some false

end Sys2Proof.Machine
end

