-- ==== Sys2Proof/Machine/Step.lean ====
section
/-! DEFINITION. One step (40_cycle.md R100), and placing a word where the next step fetches. -/

namespace Sys2Proof.Machine

/-- One step: only in Running (40_cycle.md R100, R107), fetch from array 0 or FETCH_OOB (R101, R102), decode
(R103), execute and advance (R104, R105; each meaning advances the finger itself, since LOADP does not). -/
def step (s : State) : Host.Outcome State Fault Refusal :=
  match s.run with
  | .halted => .fault .alreadyHalted
  | .faulted => .fault .alreadyFaulted
  | .running =>
    match s.fetch with
    | none => conclude s (.error .fetchOob)
    | some w => exec (decode w) s

/-- `s` with the low `nbits` bits of `w` as the platter at the finger in array 0, which is made long enough, and
Running: the very next step fetches and runs it. It stands for the load of a program by the host (log entry 4). -/
def State.withFetchWord (s : State) (nbits w : Nat) : State :=
  (s.setRun .running).setMem
    { s.mem with array0 := s.mem.array0.place s.finger.toNat (BitVec.ofNat 32 (w % 2 ^ nbits)) }

end Sys2Proof.Machine
end

