-- ==== Sys2Proof/Safety.lean ====
section
/-! DEFINITION. What holds of every state a run reaches, what counts as a step without a fault, and the words in which claims say what a step changes and what it leaves. -/

namespace Sys2Proof.Machine

/-- The active arrays fit CAPACITY (00_scope.md R9, 10_state.md R41). -/
def State.withinCapacity (s : State) : Bool := !exceeds s.mem.used s.capacity

/-- The fault record fits the run state (10_state.md R37, 60_exceptions.md R200): clear while no fault was taken;
otherwise the codes of one cause, at a finger that no longer moves. -/
def State.recordFits (s : State) : Prop :=
  match s.run with
  | .running | .halted => s.fault = .clear
  | .faulted => s.fault.ffinger = s.finger ∧ ∃ c : Cause, s.fault.kind = c.kind ∧ s.fault.sub = c.sub

/-- The invariant: the memory is in its canonical form within the limits of 20_memory.md R51 and R55, the active
arrays fit CAPACITY, and the fault record fits the run state. -/
structure State.Inv (s : State) : Prop where
  memory : s.mem.wf
  capacity : s.withinCapacity = true
  record : s.recordFits

/-- A step that takes no fault: it answers a next state, and the run state there is not Faulted (40_cycle.md R106). -/
def State.stepsSafely (s : State) : Bool :=
  match step s with
  | .next t => decide (t.run ≠ .faulted)
  | .fault _ | .refused _ => false

/-! ## What a next state `t` keeps of `s` -/

/-- Every register reads as before. -/
def sameRegs (s t : State) : Prop := ∀ r : Reg, t.readReg r = s.readReg r

/-- Every register but `a` reads as before. -/
def sameRegsBut (a : Reg) (s t : State) : Prop := ∀ r : Reg, r ≠ a → t.readReg r = s.readReg r

/-- Every handle is active or not as before, with its length, and every word of every array reads as before. -/
def sameArrays (s t : State) : Prop :=
  ∀ h : Nat, t.mem.lenOf h = s.mem.lenOf h ∧ ∀ i : Nat, t.mem.wordAt h i = s.mem.wordAt h i

/-- The same of every handle but `g`. -/
def sameArraysBut (g : Nat) (s t : State) : Prop :=
  ∀ h : Nat, h ≠ g → t.mem.lenOf h = s.mem.lenOf h ∧ ∀ i : Nat, t.mem.wordAt h i = s.mem.wordAt h i

/-- The run state and the fault record are as before. -/
def sameRun (s t : State) : Prop := t.run = s.run ∧ t.fault = s.fault

/-- Nothing sent, no Input answer taken, CAPACITY as before. -/
def sameOutside (s t : State) : Prop := t.output = s.output ∧ t.input = s.input ∧ t.capacity = s.capacity

/-- The finger moves to the next word (40_cycle.md R105). -/
def advances (s t : State) : Prop := t.finger.toNat = (s.finger.toNat + 1) % 2 ^ 32

/-- `t` is `s` with `v` in register `a` and the finger advanced, and nothing else changed. -/
def writesOnly (a : Reg) (v : Word) (s t : State) : Prop :=
  t.readReg a = v ∧ sameRegsBut a s t ∧ advances s t ∧ sameRun s t ∧ sameArrays s t ∧ sameOutside s t

/-- `t` is `s` with the fault of these kind and sub-cause codes taken, and nothing else changed (60_exceptions.md R200). -/
def takesFault (kind sub : Nat) (s t : State) : Prop :=
  t.run = .faulted ∧ t.fault.kind.toNat = kind ∧ t.fault.sub.toNat = sub ∧ t.fault.ffinger = s.finger ∧
    t.fault.fplatter = (s.mem.wordAt 0 s.finger.toNat).getD 0#32 ∧
    sameRegs s t ∧ t.finger = s.finger ∧ sameArrays s t ∧ sameOutside s t

/-! ## Instructions one after another -/

/-- The instructions of a list, each on the state the one before it left. -/
def execAll : List Instr → State → Result
  | [], s => .next s
  | i :: is, s =>
    match exec i s with
    | .next t => execAll is t
    | .fault r => .fault r
    | .refused r => .refused r

end Sys2Proof.Machine
end

