-- ==== Sys2Proof/Certificates/Slice0/Obligations.lean ====
section
/-! DEFINITION. The statements for the provers. `sameRegs`, `sameArrays`, `writesOnly`, `takesFault` and the like are in Sys2Proof/Safety.lean.
A docstring that says "decision D<n>" names a choice the spec marks as its own (spec/92_eei_decisions.md), and one that
says "log entry <n>" a choice of the model (notes/assumptions/<n>.md); "derived in the spec" is the spec's own inference.
`takesFault` always rests on two: the precise state after a fault (D3, 60_exceptions.md R200) and the code numbers and
the record's fields (D4, D20, 60_exceptions.md R191, R192, 10_state.md R37). -/

open Sys2Proof Sys2Proof.Machine

/-! ## Encoding -/

/-- `w[lo+2:lo]` by division (00_scope.md R12). -/
def Sys2Proof.Claims.field (w : Word) (lo : Nat) : Reg := Fin.ofNat 8 (w.toNat / 2 ^ lo)

/-- The instruction of an opcode and its fields, the table of 30_encoding.md R89. -/
def Sys2Proof.Claims.ofFields (op : Nat) (a b c ia : Reg) (imm : Word) : Instr :=
  match op with
  | 0 => .cmov a b c
  | 1 => .index a b c
  | 2 => .amend a b c
  | 3 => .add a b c
  | 4 => .mul a b c
  | 5 => .div a b c
  | 6 => .nand a b c
  | 7 => .halt
  | 8 => .alloc b c
  | 9 => .aband c
  | 10 => .out c
  | 11 => .inp c
  | 12 => .loadp b c
  | 13 => .ortho ia imm
  | 14 => .illegal14
  | _ => .illegal15

/-- How many low bits of the word the opcode uses beside its own four (30_encoding.md R89, "fields used"). -/
def Sys2Proof.Claims.usedBits (op : Nat) : Nat :=
  match op with
  | 0 | 1 | 2 | 3 | 4 | 5 | 6 => 9
  | 8 | 12 => 6
  | 9 | 10 | 11 => 3
  | 13 => 28
  | _ => 0

open Sys2Proof.Claims

/-- Decoding the word of a well-formed instruction gives the instruction back, for every operand. -/
def Obligations.DecodeOfEncodeIsIdentity : Prop :=
  ∀ i : Instr, i.wf = true → decode (encode i) = i

/-- 30_encoding.md R81, R82, R84, R89: the opcode is `w[31:28]`, the fields stand where the rules put them (here
by division and remainder of the word's number), and the immediate is `w[24:0]` zero-extended. -/
def Obligations.DecoderReadsTheFieldsOfTheRules : Prop :=
  ∀ w : Word, decode w =
    ofFields (w.toNat / 2 ^ 28) (field w 6) (field w 3) (field w 0) (field w 25) (BitVec.ofNat 32 (w.toNat % 2 ^ 25))

/-- 30_encoding.md section 5 (derived in the spec): the two encoding functions put each field in its place and decode to their fields, the
unused ones ignored; and the rule's two example words. -/
def Obligations.EncodingFunctionsDecodeToTheirFields : Prop :=
  (∀ (op : Nat) (a b c ia : Reg) (imm : Word), op ≤ 12 →
    (encStd op a b c).toNat = op * 2 ^ 28 + a.val * 2 ^ 6 + b.val * 2 ^ 3 + c.val ∧
    decode (encStd op a b c) = ofFields op a b c ia imm) ∧
  (∀ (a : Reg) (v : Word), v.toNat < 2 ^ 25 →
    (encImm a v).toNat = 13 * 2 ^ 28 + a.val * 2 ^ 25 + v.toNat ∧ decode (encImm a v) = .ortho a v) ∧
  encStd 3 1 2 3 = 0x30000053#32 ∧ encImm 0 97#32 = 0xD0000061#32

/-- Unused bits (30_encoding.md section 4, decision D7): words of one opcode that agree on the bits it uses decode alike; the encoder writes 0 in
every unused bit; and no bit pattern but an opcode of 14 or 15 is undefined. -/
def Obligations.UnusedBitsAreIgnoredAndWrittenZero : Prop :=
  (∀ w v : Word, w.toNat / 2 ^ 28 = v.toNat / 2 ^ 28 →
    w.toNat % 2 ^ usedBits (w.toNat / 2 ^ 28) = v.toNat % 2 ^ usedBits (w.toNat / 2 ^ 28) → decode w = decode v) ∧
  (∀ i : Instr, i.wf = true → (encode i).toNat % 2 ^ 28 < 2 ^ usedBits i.opcode) ∧
  (∀ w : Word, decode w = .illegal14 ∨ decode w = .illegal15 ↔ 14 ≤ w.toNat / 2 ^ 28)

/-- Every word decodes to an instruction whose operands fit; the decoder's `valid` output is 1 exactly when that
instruction is not an undefined opcode; and each other output is the number its bits hold (30_encoding.md sections 1 to 4;
00_scope.md section 6, derived in the spec). That an output also carries its bits on a word of the other format is
log entry 14. -/
def Obligations.EveryWordDecodesWellFormedAndValidIsExact : Prop :=
  ∀ w : Word, (decode w).wf = true ∧
    ((decoder w).valid = true ↔ decode w ≠ .illegal14 ∧ decode w ≠ .illegal15) ∧
    (decode w).opcode = w.toNat / 2 ^ 28 ∧
    (decoder w).op.toNat = w.toNat / 2 ^ 28 ∧ (decoder w).a.toNat = w.toNat / 2 ^ 6 % 8 ∧
    (decoder w).b.toNat = w.toNat / 2 ^ 3 % 8 ∧ (decoder w).c.toNat = w.toNat % 8 ∧
    (decoder w).ia.toNat = w.toNat / 2 ^ 25 % 8 ∧ (decoder w).imm.toNat = w.toNat % 2 ^ 25

/-- 30_encoding.md R84: an opcode-13 word is ORTHO of the register in bits 27 to 25 and of bits 24 to 0, zero-extended,
a value 0 to 33554431; and every bit of it is used, so the word comes back from its instruction. -/
def Obligations.OrthographyUsesEveryBit : Prop :=
  ∀ w : Word, w.toNat / 2 ^ 28 = 13 →
    ∃ (a : Reg) (v : Word), decode w = .ortho a v ∧ a.val = w.toNat / 2 ^ 25 % 8 ∧ v.toNat = w.toNat % 2 ^ 25 ∧
      v.toNat ≤ 33554431 ∧ encode (decode w) = w

/-- Words written out from the formats decode to the instructions of 95_test_vectors.md D-DEC (a sanity check). -/
def Obligations.SampleWordsDecode : Prop :=
  decode 0x000001FF#32 = .cmov 7 7 7 ∧ decode 0x1FFFFE00#32 = .index 0 0 0 ∧ decode 0x20000182#32 = .amend 6 0 2 ∧
  decode 0x3FFFFE53#32 = .add 1 2 3 ∧ decode 0x7FFFFFFF#32 = .halt ∧ decode 0x80000013#32 = .alloc 2 3 ∧
  decode 0x90000005#32 = .aband 5 ∧ decode 0xA00001C7#32 = .out 7 ∧ decode 0xB0000005#32 = .inp 5 ∧
  decode 0xC000000B#32 = .loadp 1 3 ∧ decode 0xD20004D2#32 = .ortho 1 1234#32 ∧
  decode 0xDFFFFFFF#32 = .ortho 7 0x01FFFFFF#32 ∧ decode 0xEFFFFFFF#32 = .illegal14 ∧ decode 0xF0000000#32 = .illegal15

/-! ## Register moves -/

/-- 41_move.md R120, R121: CMOV copies x[B] to x[A] when x[C] is not 0 and changes no register when it is, whatever
A, B and C are; nothing else changes but the finger, and it never faults. -/
def Obligations.CmovCopiesIffConditionIsNonzero : Prop :=
  ∀ (s : State) (a b c : Reg),
    decode (encStd 0 a b c) = .cmov a b c ∧
    ∃ t, exec (.cmov a b c) s = .next t ∧
      (s.readReg c ≠ 0#32 → writesOnly a (s.readReg b) s t) ∧
      (s.readReg c = 0#32 → sameRegs s t ∧ advances s t ∧ sameRun s t ∧ sameArrays s t ∧ sameOutside s t)

/-- 41_move.md R122, R123: ORTHO writes the zero-extended 25-bit value to x[A_imm], so bits 31 to 25 are 0, and
changes nothing else but the finger. -/
def Obligations.OrthoWritesItsImmediate : Prop :=
  ∀ (s : State) (a : Reg) (v : Word), v.toNat < 2 ^ 25 →
    decode (encImm a v) = .ortho a v ∧
    ∃ t, exec (.ortho a v) s = .next t ∧ writesOnly a v s t ∧ (t.readReg a).toNat < 2 ^ 25

/-! ## Array access -/

/-- INDEX (42_array_access.md, 20_memory.md section 2, decisions D3, D4, D18): it puts the word at (x[B], x[C]) in x[A]; an inactive handle is
MemoryFault / INACTIVE_HANDLE, checked first; an offset at or beyond the length is MemoryFault / OFFSET_OOB. -/
def Obligations.IndexReadsTheWordOrFaults : Prop :=
  ∀ (s : State) (a b c : Reg),
    decode (encStd 1 a b c) = .index a b c ∧
    ∃ t, exec (.index a b c) s = .next t ∧
      (∀ v, s.mem.wordAt (s.readReg b).toNat (s.readReg c).toNat = some v → writesOnly a v s t) ∧
      (s.mem.lenOf (s.readReg b).toNat = none → takesFault 3 1 s t) ∧
      (∀ n, s.mem.lenOf (s.readReg b).toNat = some n → n ≤ (s.readReg c).toNat → takesFault 3 2 s t)

/-- Where an address has a word: exactly at the offsets below the length of an active array (20_memory.md sections 1 and 2). -/
def Obligations.WordsStandBelowTheLength : Prop :=
  ∀ (m : Memory) (h i : Nat),
    (∃ v, m.wordAt h i = some v) ↔ ∃ n, m.lenOf h = some n ∧ i < n

/-- AMEND (42_array_access.md, 20_memory.md section 2, decisions D3, D4, D18): it stores x[C] at the address (x[A], x[B]); every other word of
that array and of every other array, every length and every register is as before; the faults are INDEX's. -/
def Obligations.AmendStoresTheWordOrFaults : Prop :=
  ∀ (s : State) (a b c : Reg), s.mem.wf →
    decode (encStd 2 a b c) = .amend a b c ∧
    ∃ t, exec (.amend a b c) s = .next t ∧
      (∀ n, s.mem.lenOf (s.readReg a).toNat = some n → (s.readReg b).toNat < n →
        t.mem.wordAt (s.readReg a).toNat (s.readReg b).toNat = some (s.readReg c) ∧
        (∀ h i : Nat, ¬ (h = (s.readReg a).toNat ∧ i = (s.readReg b).toNat) → t.mem.wordAt h i = s.mem.wordAt h i) ∧
        (∀ h : Nat, t.mem.lenOf h = s.mem.lenOf h) ∧
        sameRegs s t ∧ advances s t ∧ sameRun s t ∧ sameOutside s t) ∧
      (s.mem.lenOf (s.readReg a).toNat = none → takesFault 3 1 s t) ∧
      (∀ n, s.mem.lenOf (s.readReg a).toNat = some n → n ≤ (s.readReg b).toNat → takesFault 3 2 s t)

/-- 42_array_access.md R133: an AMEND and then an INDEX of the same handle and offset gives the value back, for every
valid pair; for an inactive handle or an offset at or beyond the length both fail. -/
def Obligations.AmendThenIndexReturnsTheValue : Prop :=
  ∀ (s : State) (a b c d : Reg), s.mem.wf →
    (∀ n, s.mem.lenOf (s.readReg a).toNat = some n → (s.readReg b).toNat < n →
      ∃ t u, exec (.amend a b c) s = .next t ∧ exec (.index d a b) t = .next u ∧ u.readReg d = s.readReg c) ∧
    ((s.mem.lenOf (s.readReg a).toNat = none ∨ ∃ n, s.mem.lenOf (s.readReg a).toNat = some n ∧ n ≤ (s.readReg b).toNat) →
      (∃ t, exec (.amend a b c) s = .next t ∧ t.run = .faulted) ∧
      (∃ t, exec (.index d a b) s = .next t ∧ t.run = .faulted))

/-! ## Arithmetic and logic -/

/-- 43_alu.md R140: ADD writes (x[B] + x[C]) mod 2^32 to x[A], and changes nothing else but the finger. -/
def Obligations.AddWritesTheSumModulo : Prop :=
  ∀ (s : State) (a b c : Reg),
    decode (encStd 3 a b c) = .add a b c ∧
    ∃ t v, exec (.add a b c) s = .next t ∧ writesOnly a v s t ∧
      v.toNat = ((s.readReg b).toNat + (s.readReg c).toNat) % 2 ^ 32

/-- 43_alu.md R142: MUL writes (x[B] * x[C]) mod 2^32 to x[A], and changes nothing else but the finger. -/
def Obligations.MulWritesTheProductModulo : Prop :=
  ∀ (s : State) (a b c : Reg),
    decode (encStd 4 a b c) = .mul a b c ∧
    ∃ t v, exec (.mul a b c) s = .next t ∧ writesOnly a v s t ∧
      v.toNat = ((s.readReg b).toNat * (s.readReg c).toNat) % 2 ^ 32

/-- DIV (43_alu.md, decisions D3, D4): it writes the floor of the unsigned quotient to x[A], the q with q * c ≤ b < (q + 1) * c; a
divisor of 0 is ArithmeticFault for every dividend. -/
def Obligations.DivWritesTheQuotientOrFaults : Prop :=
  ∀ (s : State) (a b c : Reg),
    decode (encStd 5 a b c) = .div a b c ∧
    ∃ t, exec (.div a b c) s = .next t ∧
      (s.readReg c ≠ 0#32 → ∃ v : Word, writesOnly a v s t ∧
        v.toNat * (s.readReg c).toNat ≤ (s.readReg b).toNat ∧
        (s.readReg b).toNat < (v.toNat + 1) * (s.readReg c).toNat) ∧
      (s.readReg c = 0#32 → takesFault 4 0 s t)

/-- 43_alu.md R146: NAND writes the bitwise complement of x[B] AND x[C], all 32 bits, to x[A], and changes
nothing else but the finger. -/
def Obligations.NandWritesTheComplementOfTheAnd : Prop :=
  ∀ (s : State) (a b c : Reg),
    decode (encStd 6 a b c) = .nand a b c ∧
    ∃ t v, exec (.nand a b c) s = .next t ∧ writesOnly a v s t ∧
      ∀ k, k < 32 → v.getLsbD k = !((s.readReg b).getLsbD k && (s.readReg c).getLsbD k)

/-- Subtraction (43_alu.md, derived in the spec): b - c mod 2^32 as NAND, ORTHO and two ADDs, with `u` and `o` as work registers. -/
def Obligations.SubtractionIsComposed : Prop :=
  ∀ (s : State) (a b c u o : Reg), u ≠ b → o ≠ b → o ≠ u →
    ∃ t, execAll [.nand u c c, .ortho o 1#32, .add u u o, .add a b u] s = .next t ∧
      (t.readReg a).toNat = ((s.readReg b).toNat + 2 ^ 32 - (s.readReg c).toNat) % 2 ^ 32

/-! ## Control transfer -/

/-- HALT (44_control.md, decisions D7, D12): every word of opcode 7 is a HALT, whatever its other bits (D7); HALT sets
the run state to Halted, its step advances the finger (D12), nothing else changes, and no step follows. -/
def Obligations.HaltEndsTheRun : Prop :=
  (∀ w : Word, w.toNat / 2 ^ 28 = 7 → decode w = .halt) ∧
  ∀ s : State, ∃ t, exec .halt s = .next t ∧ t.run = .halted ∧ t.fault = s.fault ∧ sameRegs s t ∧ advances s t ∧
    sameArrays s t ∧ sameOutside s t ∧ ∀ u, step t ≠ .next u

/-- LOADP (44_control.md, 20_memory.md section 2, decisions D3, D4, D6, D8; that CAPACITY stands in the state is log entry 2): of handle 0 changes only the finger; of another active handle whose
copy fits CAPACITY it also makes array 0 a copy; an inactive handle is MemoryFault / LOADP_INACTIVE; a copy that
does not fit is ResourceFault / EXHAUSTED. Any finger is accepted. -/
def Obligations.LoadpCopiesAndJumpsOrFaults : Prop :=
  ∀ (s : State) (a b c : Reg),
    decode (encStd 12 a b c) = .loadp b c ∧
    ∃ t, exec (.loadp b c) s = .next t ∧
      (s.readReg b = 0#32 →
        t.finger = s.readReg c ∧ sameRegs s t ∧ sameRun s t ∧ sameArrays s t ∧ sameOutside s t) ∧
      (∀ n z, s.readReg b ≠ 0#32 → s.mem.lenOf (s.readReg b).toNat = some n → s.mem.lenOf 0 = some z →
        (∀ k, s.capacity = some k → s.mem.used - z + n ≤ k) →
        t.finger = s.readReg c ∧ t.mem.lenOf 0 = some n ∧
        (∀ i, t.mem.wordAt 0 i = s.mem.wordAt (s.readReg b).toNat i) ∧
        sameArraysBut 0 s t ∧ sameRegs s t ∧ sameRun s t ∧ sameOutside s t) ∧
      (s.readReg b ≠ 0#32 → s.mem.lenOf (s.readReg b).toNat = none → takesFault 3 4 s t) ∧
      (∀ n z k, s.readReg b ≠ 0#32 → s.mem.lenOf (s.readReg b).toNat = some n → s.mem.lenOf 0 = some z →
        s.capacity = some k → k < s.mem.used - z + n → takesFault 5 3 s t)

/-- 44_control.md R165: after a LOADP that does not fault, the next fetch reads the copied array at the new finger. -/
def Obligations.NextFetchAfterLoadpReadsTheCopy : Prop :=
  ∀ (s t : State) (b c : Reg), exec (.loadp b c) s = .next t → t.run = .running →
    t.finger = s.readReg c ∧ t.fetch = s.mem.wordAt (s.readReg b).toNat (s.readReg c).toNat

/-- The conditional branch (44_control.md, derived in the spec): the composed conditional branch goes to `T` when x[rc] is not 0 and to `F` otherwise. -/
def Obligations.ConditionalBranchIsComposed : Prop :=
  ∀ (s : State) (rt rf rc rz : Reg) (T F : Word), T.toNat < 2 ^ 25 → F.toNat < 2 ^ 25 →
    rt ≠ rf → rc ≠ rt → rc ≠ rf → rz ≠ rt → rz ≠ rf → s.readReg rz = 0#32 →
    ∃ t, execAll [.ortho rt T, .ortho rf F, .cmov rf rt rc, .loadp rz rf] s = .next t ∧
      (s.readReg rc ≠ 0#32 → t.finger = T) ∧ (s.readReg rc = 0#32 → t.finger = F) ∧
      sameRun s t ∧ sameArrays s t ∧ sameOutside s t

/-! ## Array management -/

/-- `used` (10_state.md section 4, decision D8) is the sum of the lengths of the active arrays. -/
def Obligations.UsedSumsTheActiveLengths : Prop :=
  ∀ m : Memory, m.used = ((List.range (m.slots.length + 1)).map fun h => (m.lenOf h).getD 0).sum

/-- ALLOC (45_array_mgmt.md, 20_memory.md section 2, decisions D3, D4, D8, D9; that CAPACITY stands in the state is log entry 2): when the size fits CAPACITY and some handle from 1 to
2^32 - 1 is inactive, ALLOC makes an array of x[C] zeros under the lowest such handle and puts the handle in x[B];
otherwise it is ResourceFault / EXHAUSTED. -/
def Obligations.AllocTakesTheLowestFreeHandleOrFaults : Prop :=
  ∀ (s : State) (a b c : Reg),
    decode (encStd 8 a b c) = .alloc b c ∧
    ∃ t, exec (.alloc b c) s = .next t ∧
      ((∀ k, s.capacity = some k → s.mem.used + (s.readReg c).toNat ≤ k) →
        ∀ free : Nat, 0 < free → free < 2 ^ 32 → s.mem.lenOf free = none →
        ∃ h : Word, t.readReg b = h ∧ 0 < h.toNat ∧ s.mem.lenOf h.toNat = none ∧
          (∀ g : Nat, 0 < g → g < h.toNat → s.mem.lenOf g ≠ none) ∧
          t.mem.lenOf h.toNat = some (s.readReg c).toNat ∧
          (∀ i : Nat, i < (s.readReg c).toNat → t.mem.wordAt h.toNat i = some 0#32) ∧
          sameArraysBut h.toNat s t ∧ sameRegsBut b s t ∧ advances s t ∧ sameRun s t ∧ sameOutside s t) ∧
      (∀ k, s.capacity = some k → k < s.mem.used + (s.readReg c).toNat → takesFault 5 3 s t) ∧
      ((∀ g : Nat, 0 < g → g < 2 ^ 32 → s.mem.lenOf g ≠ none) → takesFault 5 3 s t)

/-- ABAND (45_array_mgmt.md, 20_memory.md section 2, decisions D3, D4, D17): it makes the handle in x[C] inactive, and `used` falls by its
length; handle 0 is ResourceFault / ABANDON_ZERO in every state, and any other handle that is not active
ResourceFault / ABANDON_INACTIVE. -/
def Obligations.AbandFreesTheHandleOrFaults : Prop :=
  ∀ (s : State) (a b c : Reg),
    decode (encStd 9 a b c) = .aband c ∧
    ∃ t, exec (.aband c) s = .next t ∧
      (∀ n, s.readReg c ≠ 0#32 → s.mem.lenOf (s.readReg c).toNat = some n →
        t.mem.lenOf (s.readReg c).toNat = none ∧ (∀ i, t.mem.wordAt (s.readReg c).toNat i = none) ∧
        t.mem.used + n = s.mem.used ∧ sameArraysBut (s.readReg c).toNat s t ∧
        sameRegs s t ∧ advances s t ∧ sameRun s t ∧ sameOutside s t) ∧
      (s.readReg c = 0#32 → takesFault 5 1 s t) ∧
      (s.readReg c ≠ 0#32 → s.mem.lenOf (s.readReg c).toNat = none → takesFault 5 2 s t)

/-- 45_array_mgmt.md R175: allocate, abandon, allocate reuses the freed handle, whatever the two sizes. -/
def Obligations.FreedHandleIsReused : Prop :=
  ∀ (s t u v : State) (b c d e : Reg), exec (.alloc b c) s = .next t → exec (.aband b) t = .next u →
    exec (.alloc d e) u = .next v → v.run = .running → v.readReg d = t.readReg b

/-- Stale handles (20_memory.md section 2, derived in the spec; decisions D3, D4, D6, D17): an ABAND that does not fault
leaves its handle inactive; a handle that is inactive before a step is inactive after it, unless the step is an ALLOC
that put this handle in x[B]; and in every state in which a handle is inactive, every INDEX, AMEND, ABAND and LOADP
through any register that holds it faults. So they fault until the slot is reused. -/
def Obligations.StaleHandleFaults : Prop :=
  (∀ (s t : State) (c : Reg), exec (.aband c) s = .next t → t.run = .running →
    t.mem.lenOf (s.readReg c).toNat = none) ∧
  (∀ (s t : State) (h : Nat), step s = .next t → s.mem.lenOf h = none →
    t.mem.lenOf h = none ∨
      ∃ w b c, s.fetch = some w ∧ decode w = .alloc b c ∧ t.run = .running ∧ (t.readReg b).toNat = h) ∧
  ∀ (s : State) (r p q : Reg), s.mem.lenOf (s.readReg r).toNat = none →
    (∃ t, exec (.index p r q) s = .next t ∧ takesFault 3 1 s t) ∧
    (∃ t, exec (.amend r p q) s = .next t ∧ takesFault 3 1 s t) ∧
    (∃ t, exec (.aband r) s = .next t ∧ takesFault 5 2 s t) ∧
    (∃ t, exec (.loadp r p) s = .next t ∧ takesFault 3 4 s t)

/-! ## Console I/O -/

/-- OUT (46_io.md, decisions D3, D4, D21): it sends exactly the byte x[C], 0 to 255, after the bytes already sent; a larger value is IOFault
and sends nothing. -/
def Obligations.OutSendsOneByteOrFaults : Prop :=
  ∀ (s : State) (a b c : Reg),
    decode (encStd 10 a b c) = .out c ∧
    ∃ t, exec (.out c) s = .next t ∧
      ((s.readReg c).toNat ≤ 255 → (∃ y : Byte, y.toNat = (s.readReg c).toNat ∧ t.output = s.output ++ [y]) ∧
        sameRegs s t ∧ advances s t ∧ sameRun s t ∧ sameArrays s t ∧ t.input = s.input ∧ t.capacity = s.capacity) ∧
      (255 < (s.readReg c).toNat → takesFault 6 0 s t)

/-- IN (46_io.md, decisions D7, D10): it writes the host's next byte zero-extended to x[C], or 0xFFFFFFFF at end of
input, takes exactly that answer and changes nothing else but the finger; its word's fields A and B are ignored (D7).
That the answers stand ahead of their requests in `s.input` is log entry 3, a choice of the model. -/
def Obligations.InTakesTheNextAnswer : Prop :=
  ∀ (s : State) (a b c : Reg) (r : Answer) (rest : List Answer), s.input = r :: rest →
    decode (encStd 11 a b c) = .inp c ∧
    ∃ t, exec (.inp c) s = .next t ∧
      (∀ y : Byte, r = .byte y → (t.readReg c).toNat = y.toNat) ∧
      (r = .eof → t.readReg c = 0xFFFFFFFF#32) ∧
      t.input = rest ∧ sameRegsBut c s t ∧ advances s t ∧ sameRun s t ∧ sameArrays s t ∧
      t.output = s.output ∧ t.capacity = s.capacity

/-- The wait (00_scope.md section 6, 46_io.md, 40_cycle.md, decision D10): the core requests an answer exactly when it is
Running and the platter at the finger is an IN, and it waits exactly when it requests one and none is there; while it
waits, the step leaves the whole state as it was, so nothing else runs; the wait ends with the answer. That answers
stand in `s.input`, and that a wait is a step to the same state, is the model's own (log entry 3). -/
def Obligations.InWaitsUntilTheHostAnswers : Prop :=
  (∀ s : State, s.inputRequested = true ↔ s.run = .running ∧ ∃ w c, s.fetch = some w ∧ decode w = .inp c) ∧
  (∀ s : State, s.waiting = true ↔
    s.run = .running ∧ (∃ w c, s.fetch = some w ∧ decode w = .inp c) ∧ s.input = []) ∧
  ∀ (s : State) (w : Word) (c : Reg) (r : Answer), s.run = .running → s.fetch = some w → decode w = .inp c →
    s.input = [] →
    step s = .next s ∧
    ∃ t, step (s.answer r) = .next t ∧ advances s t ∧ t.readReg c = answerWord r ∧ t.input = []

/-- I/O order (20_memory.md section 5, derived in the spec): a step sends nothing, or one byte when it is an OUT, after
the bytes already sent; it takes no answer, or the next one when it is an IN. That the answers stand ahead of their
requests in `s.input`, the next one first, is log entry 3. -/
def Obligations.OutputGrowsAndInputShrinksInOrder : Prop :=
  ∀ (s t : State), step s = .next t →
    (t.output = s.output ∨ ∃ w c y, s.fetch = some w ∧ decode w = .out c ∧ t.output = s.output ++ [y]) ∧
    (t.input = s.input ∨ ∃ w c r, s.fetch = some w ∧ decode w = .inp c ∧ s.input = r :: t.input)

/-- What the host will answer later does not change a step that is not waiting for it (46_io.md, decision D10; 40_cycle.md, derived in the spec; that answers are held ahead of their requests is log
entry 3). -/
def Obligations.LaterAnswersDoNotChangeAStep : Prop :=
  ∀ (s t : State) (r : Answer), step s = .next t → s.waiting = false → step (s.answer r) = .next (t.answer r)

/-! ## The instruction cycle -/

/-- Running, with a platter at the finger: a step is exactly the execution of the decoded platter. Nothing stands around
it: each meaning advances the finger itself (40_cycle.md). -/
def Obligations.StepRunsTheDecodedPlatter : Prop :=
  ∀ (s : State) (w : Word), s.run = .running → s.mem.wordAt 0 s.finger.toNat = some w → step s = exec (decode w) s

/-- The fetch (40_cycle.md, decisions D3, D4, D5): one at or beyond the end of array 0 is MemoryFault / FETCH_OOB with fplatter 0. -/
def Obligations.FetchOutOfBoundsFaults : Prop :=
  ∀ (s : State) (n : Nat), s.run = .running → s.mem.lenOf 0 = some n → n ≤ s.finger.toNat →
    ∃ t, step s = .next t ∧ takesFault 3 3 s t ∧ t.fault.fplatter = 0#32

/-- Undefined opcodes (40_cycle.md, 60_exceptions.md section 1, decisions D3, D4, D20): a fetched platter with opcode 14 or 15 is DecodeError, which records the
platter, and nothing is executed. -/
def Obligations.UndefinedOpcodeIsDecodeError : Prop :=
  (∀ s : State, (∃ t, exec .illegal14 s = .next t ∧ takesFault 2 0 s t) ∧
    ∃ t, exec .illegal15 s = .next t ∧ takesFault 2 0 s t) ∧
  ∀ (s : State) (w : Word), s.run = .running → s.mem.wordAt 0 s.finger.toNat = some w → 14 ≤ w.toNat / 2 ^ 28 →
    ∃ t, step s = .next t ∧ takesFault 2 0 s t ∧ t.fault.fplatter = w

/-- 40_cycle.md R107: in Halted and in Faulted no step is enabled. -/
def Obligations.TerminalRunStatesTakeNoStep : Prop :=
  ∀ s t : State, s.run ≠ .running → step s ≠ .next t

/-- In Running a step always has a next state, for every state and every platter: no instruction is refused and none
stops the model (40_cycle.md, derived in the spec; that a wait is a step to the same state is log entry 3, and that a
fault is a next state is log entry 5). -/
def Obligations.RunningAlwaysSteps : Prop :=
  ∀ s : State, s.run = .running → ∃ t, step s = .next t

/-- Faults are precise (60_exceptions.md section 3, decisions D3, D4, D20): a step that faults writes no register, array, slot or finger and sends no byte; it sets
Faulted, one of the codes of R191 and R192, the finger and the platter (0 when there was none). -/
def Obligations.FaultingStepIsPrecise : Prop :=
  ∀ s t : State, step s = .next t → t.run = .faulted →
    ∃ kind sub : Nat, takesFault kind sub s t ∧
      (kind, sub) ∈ [(2, 0), (3, 1), (3, 2), (3, 3), (3, 4), (4, 0), (5, 1), (5, 2), (5, 3), (6, 0)]

/-- The advance (40_cycle.md, decisions D12, D22): after an instruction that did not fault the finger is one further, HALT's too, except that
LOADP leaves the value it gave. (An IN that still waits has not ended.) -/
def Obligations.FingerAdvancesUnlessLoadp : Prop :=
  ∀ (s t : State) (w : Word), step s = .next t → s.fetch = some w → t.run ≠ .faulted → s.waiting = false →
    ((∀ b c : Reg, decode w ≠ .loadp b c) → advances s t) ∧
    (∀ b c : Reg, decode w = .loadp b c → t.finger = s.readReg c)

/-- HALT is the only way a run ends without a fault (44_control.md, 60_exceptions.md section 1). -/
def Obligations.OnlyHaltReachesHalted : Prop :=
  ∀ s t : State, step s = .next t → (t.run = .halted ↔ ∃ w, s.fetch = some w ∧ w.toNat / 2 ^ 28 = 7)

/-- Which register an instruction may write, the table of 10_state.md R31. -/
def Sys2Proof.Claims.writtenReg (s : State) : Instr → Option Reg
  | .cmov a _ c => if s.readReg c ≠ 0#32 then some a else none
  | .index a _ _ | .add a _ _ | .mul a _ _ | .div a _ _ | .nand a _ _ | .ortho a _ => some a
  | .alloc b _ => some b
  | .inp c => some c
  | .amend _ _ _ | .halt | .aband _ | .out _ | .loadp _ _ | .illegal14 | .illegal15 => none

/-- 10_state.md R31: an instruction changes no register but the one its row names, so never more than one. -/
def Obligations.OnlyTheNamedRegisterIsWritten : Prop :=
  ∀ (i : Instr) (s t : State) (r : Reg), exec i s = .next t → writtenReg s i ≠ some r → t.readReg r = s.readReg r

/-- Which registers an instruction reads (10_state.md R32). -/
def Sys2Proof.Claims.readRegs : Instr → List Reg
  | .cmov _ b c | .index _ b c | .add _ b c | .mul _ b c | .div _ b c | .nand _ b c | .loadp b c => [b, c]
  | .amend a b c => [a, b, c]
  | .alloc _ c | .aband c | .out c => [c]
  | .halt | .inp _ | .ortho _ _ | .illegal14 | .illegal15 => []

/-- An instruction's effect depends on no register but those it reads (10_state.md section 1, derived in the spec): from two states that differ
only in other registers it ends alike, and a register ends alike or is untouched in both. -/
def Obligations.UnreadRegistersDoNotMatter : Prop :=
  ∀ (i : Instr) (s t u : State), exec i s = .next t → (∀ r ∈ readRegs i, u.readReg r = s.readReg r) →
    u.finger = s.finger → u.run = s.run → u.fault = s.fault → u.mem = s.mem → u.output = s.output →
    u.capacity = s.capacity → u.input = s.input →
    ∃ v, exec i u = .next v ∧ v.finger = t.finger ∧ v.run = t.run ∧ v.fault = t.fault ∧ v.mem = t.mem ∧
      v.output = t.output ∧ v.capacity = t.capacity ∧ v.input = t.input ∧
      ∀ r : Reg, v.readReg r = t.readReg r ∨ (v.readReg r = u.readReg r ∧ t.readReg r = s.readReg r)

/-- Instruction-fetch coherence (20_memory.md section 5, derived in the spec): an AMEND of array 0 is seen by the next fetch, when it wrote the word the finger moves to. -/
def Obligations.AmendOfTheProgramIsFetched : Prop :=
  ∀ (s t : State) (a b c : Reg), s.mem.wf → exec (.amend a b c) s = .next t → t.run = .running →
    s.readReg a = 0#32 → s.readReg b = t.finger →
    t.fetch = some (s.readReg c) ∧ step t = exec (decode (s.readReg c)) t

/-! ## The handle table over a step -/

/-- Lengths are fixed (20_memory.md section 1, derived in the spec): an array that is active before and after a step has the same length, but for array 0 at a LOADP. -/
def Obligations.ArrayLengthsStayFixed : Prop :=
  ∀ (s t : State) (h n k : Nat), step s = .next t → s.mem.lenOf h = some n → t.mem.lenOf h = some k →
    k = n ∨ (h = 0 ∧ ∃ w, s.fetch = some w ∧ w.toNat / 2 ^ 28 = 12)

/-- The handle table never gets shorter (10_state.md section 4, decision D15). -/
def Obligations.TableNeverShrinks : Prop :=
  ∀ s t : State, step s = .next t → s.mem.slots.length ≤ t.mem.slots.length

/-- 20_memory.md R61: handle 0 is active in every state, allocate never returns it, and abandon refuses it whatever
the state. -/
def Obligations.HandleZeroIsNeverFreedNorGivenOut : Prop :=
  ∀ s : State, (∃ n, s.mem.lenOf 0 = some n) ∧
    (∀ (b c : Reg) (t : State), exec (.alloc b c) s = .next t → t.run = .running → t.readReg b ≠ 0#32) ∧
    (∀ c : Reg, s.readReg c = 0#32 → ∃ t, exec (.aband c) s = .next t ∧ t.run = .faulted ∧ sameArrays s t)

/-- Offset 2^32 - 1 is out of bounds in every array (20_memory.md section 1, decision D16), so a step at that finger is
MemoryFault / FETCH_OOB (40_cycle.md, decisions D3, D4, D5) and the finger never wraps (10_state.md section 2, decision
D22). -/
def Obligations.LastOffsetIsOutOfBounds : Prop :=
  ∀ s : State, s.Inv → (∀ h : Nat, s.mem.wordAt h (2 ^ 32 - 1) = none) ∧
    (∀ t, s.finger.toNat = 2 ^ 32 - 1 → step s = .next t → takesFault 3 3 s t)

/-- Tables in the canonical form that have the same slots and hold the same words are equal data (the model's own form,
log entry 6). -/
def Obligations.EqualWordsMakeEqualArrays : Prop :=
  ∀ (m n : Memory), m.wf → n.wf → m.slots.length = n.slots.length →
    (∀ h : Nat, m.lenOf h = n.lenOf h ∧ ∀ i, m.wordAt h i = n.wordAt h i) → m = n

/-! ## Reset, load and the invariant -/

/-- 70_reset_and_hazards.md R220: an image of 4m bytes makes array 0 of length m, word j the big-endian word of bytes
4j to 4j + 3, for every image that fits and from any state. -/
def Obligations.ImageBecomesArrayZeroBigEndian : Prop :=
  ∀ (s : State) (p : RunInputs) (m : Nat), p.image.length = 4 * m → m ≤ 2 ^ 32 - 1 →
    (∀ k, p.capacity = some k → m ≤ k) →
    (s.resetWith p).mem.lenOf 0 = some m ∧
    ∀ j : Nat, j < m → ∃ w : Word, (s.resetWith p).mem.wordAt 0 j = some w ∧
      w.toNat = (p.image.getD (4 * j) 0#8).toNat * 2 ^ 24 + (p.image.getD (4 * j + 1) 0#8).toNat * 2 ^ 16 +
        (p.image.getD (4 * j + 2) 0#8).toNat * 2 ^ 8 + (p.image.getD (4 * j + 3) 0#8).toNat

/-- Reset (70_reset_and_hazards.md section 1, decisions D2, D8, D10, D15, D16, D19, D20) with an image that fits, from any
state and for every REG_RESET: the registers hold REG_RESET, the finger is 0, the run is Running, the record is clear,
nothing is sent, the table has exactly one slot, and T[0] holds the words of the image and no other
(ImageBecomesArrayZeroBigEndian gives their values). CAPACITY and the answers, which the model holds in State (log
entries 2 and 3), are the run's. -/
def Obligations.ResetSetsTheStartState : Prop :=
  ∀ (s : State) (p : RunInputs) (m : Nat), p.image.length = 4 * m → m ≤ 2 ^ 32 - 1 →
    (∀ k, p.capacity = some k → m ≤ k) →
    (s.resetWith p).run = .running ∧ (s.resetWith p).finger = 0#32 ∧
    (s.resetWith p).fault = { kind := 0, sub := 0, ffinger := 0, fplatter := 0 } ∧
    (∀ r : Reg, (s.resetWith p).readReg r = p.regReset[r]) ∧ (s.resetWith p).output = [] ∧
    (s.resetWith p).mem.slots = [] ∧ (∀ h : Nat, h ≠ 0 → (s.resetWith p).mem.lenOf h = none) ∧
    (s.resetWith p).mem.lenOf 0 = some m ∧ (∀ j : Nat, (s.resetWith p).mem.wordAt 0 j = (imageWords p.image)[j]?) ∧
    (s.resetWith p).capacity = p.capacity ∧ (s.resetWith p).input = p.answers

/-- LoadError (70_reset_and_hazards.md section 1, decisions D4, D8, D16): an image whose length is no multiple of 4, or of more than 4 * (2^32 - 1) bytes, or
of more words than CAPACITY, is a LoadError: Faulted, kind 1, sub 0, ffinger 0, fplatter 0, and no step runs. -/
def Obligations.BadImageIsALoadError : Prop :=
  ∀ (s : State) (p : RunInputs),
    (p.image.length % 4 ≠ 0 ∨ 4 * (2 ^ 32 - 1) < p.image.length ∨
      ∃ k, p.capacity = some k ∧ k < p.image.length / 4) →
    (s.resetWith p).run = .faulted ∧ (s.resetWith p).fault = { kind := 1, sub := 0, ffinger := 0, fplatter := 0 } ∧
    ∀ t, step (s.resetWith p) ≠ .next t

/-- The invariant holds after every reset that loads its image: for every REG_RESET, CAPACITY, image and sequence of
answers, and from any state (70_reset_and_hazards.md section 1; the invariant rests on what EveryStepKeepsTheInvariant
names). -/
def Obligations.EveryResetEstablishesTheInvariant : Prop :=
  ∀ (s : State) (p : RunInputs), loadRefused p = false → (s.resetWith p).Inv

/-- The invariant holds in the model's one reset state. Its registers, CAPACITY and answers are the model's choice
(log entries 1, 2 and 3). -/
def Obligations.ResetStateHasTheInvariant : Prop := State.reset.Inv

/-- Every step keeps the invariant, from every state that has it: the memory keeps its canonical form (log entry 6) and
its limits (20_memory.md sections 1 and 2, decisions D8, D16), the active arrays fit CAPACITY (00_scope.md section 4), and
the fault record fits the run state, with the codes of a fault (10_state.md section 3, decisions D3, D4, D19, D20). -/
def Obligations.EveryStepKeepsTheInvariant : Prop :=
  ∀ s t : State, s.Inv → step s = .next t → t.Inv

/-- Every state of a run from any reset that loads its image has the invariant (what it rests on is named at
EveryStepKeepsTheInvariant). -/
def Obligations.EveryReachedStateHasTheInvariant : Prop :=
  ∀ (s : State) (p : RunInputs) (k : Nat) (t : State), loadRefused p = false →
    Host.Core.run core k (s.resetWith p) = .next t → t.Inv

/-- STATUS after a step (00_scope.md section 6, 10_state.md section 3, 40_cycle.md, decisions D1, D3, D4, D12, D19, D20):
always the whole fault record, its kind, sub-cause, finger and platter (FaultingStepIsPrecise gives their values); 1,
exit status 0 and the finger one past the HALT for Halted; 2, a kind that is not 0 and the finger of the faulting step
for Faulted; 0 and no kind while Running. That STATUS shows the finger in Halted, and no finger but the record's otherwise, is log entry 13. -/
def Obligations.StatusTellsHowTheStepEnded : Prop :=
  ∀ s t : State, s.Inv → step s = .next t →
    t.status.record = t.fault ∧
    ((t.run = .running ∧ t.status.runState = 0#2 ∧ t.status.record.kind = 0#3 ∧ t.status.haltFinger = none ∧
      t.exitsZero = none) ∨
    (t.run = .halted ∧ t.status.runState = 1#2 ∧ t.status.record.kind = 0#3 ∧
      t.status.haltFinger = some (s.finger + 1#32) ∧ t.exitsZero = some true) ∨
    (t.run = .faulted ∧ t.status.runState = 2#2 ∧ t.status.record.kind ≠ 0#3 ∧ t.status.record.ffinger = s.finger ∧
      t.status.haltFinger = none ∧ t.exitsZero = some false))

/-- The word placed for the host's check is the one the very next step runs (the model's own, log entry 4). -/
def Obligations.PlacedWordIsRunNext : Prop :=
  ∀ (s : State) (w : Word), s.mem.wf →
    step (s.withFetchWord 32 w.toNat) = exec (decode w) (s.withFetchWord 32 w.toNat)
end

