-- ==== Sys2Proof/Laws/Decode.lean ====
section
/-! SUPPORT. The decoder's fields and the encoder's words as numbers, so that a claim about an encoding is linear arithmetic. -/

namespace Sys2Proof

/-! ## Fields -/

theorem opField_toNat (w : Word) : (opField w).toNat = w.toNat / 2 ^ 28 := by
  have := w.isLt
  simp only [opField, BitVec.extractLsb'_toNat, Nat.shiftRight_eq_div_pow]
  omega

theorem regBits_toNat (w : Word) (lo : Nat) : (regBits w lo).toNat = w.toNat / 2 ^ lo % 8 := by
  simp [regBits, BitVec.extractLsb'_toNat, Nat.shiftRight_eq_div_pow]

/-- A field as the register index it holds. -/
theorem regBits_toFin_val (w : Word) (lo : Nat) : (regBits w lo).toFin.val = w.toNat / 2 ^ lo % 8 := regBits_toNat w lo

theorem immField_toNat (w : Word) : (immField w).toNat = w.toNat % 2 ^ 25 := by
  simp only [immField, BitVec.toNat_setWidth, BitVec.extractLsb'_toNat, Nat.shiftRight_zero]
  omega

/-! ## The decoder's outputs -/

@[simp] theorem decoder_op (w : Word) : (decoder w).op = opField w := rfl
@[simp] theorem decoder_a (w : Word) : (decoder w).a = regBits w 6 := rfl
@[simp] theorem decoder_b (w : Word) : (decoder w).b = regBits w 3 := rfl
@[simp] theorem decoder_c (w : Word) : (decoder w).c = regBits w 0 := rfl
@[simp] theorem decoder_ia (w : Word) : (decoder w).ia = regBits w 25 := rfl
@[simp] theorem decoder_imm (w : Word) : (decoder w).imm = immField w := rfl

theorem decoder_valid (w : Word) : (decoder w).valid = true ↔ w.toNat / 2 ^ 28 ≤ 13 := by
  simp [decoder, opField_toNat]

/-! ## Words -/

theorem encStd_toNat {op : Nat} (h : op < 16) (a b c : Reg) :
    (encStd op a b c).toNat = op * 2 ^ 28 + a.val * 64 + b.val * 8 + c.val := by
  have ha := a.isLt
  have hb := b.isLt
  have hc := c.isLt
  have e : (encStd op a b c).toNat =
      ((op <<< 28 ||| a.val <<< 6) ||| b.val <<< 3) ||| c.val := by
    simp only [encStd, BitVec.toNat_or, BitVec.toNat_shiftLeft, BitVec.toNat_ofNat, Nat.shiftLeft_eq]
    congr 3 <;> omega
  rw [e, Nat.or_assoc, Nat.or_assoc, ← Nat.shiftLeft_add_eq_or_of_lt (i := 3) (by omega) b.val,
    ← Nat.shiftLeft_add_eq_or_of_lt (i := 6) (by simp only [Nat.shiftLeft_eq]; omega) a.val,
    ← Nat.shiftLeft_add_eq_or_of_lt (i := 28) (by simp only [Nat.shiftLeft_eq]; omega) op]
  simp only [Nat.shiftLeft_eq]
  omega

theorem encImm_toNat {v : Word} (h : v.toNat < 2 ^ 25) (a : Reg) :
    (encImm a v).toNat = 13 * 2 ^ 28 + a.val * 2 ^ 25 + v.toNat := by
  have ha := a.isLt
  have e : (encImm a v).toNat = (13 <<< 28 ||| a.val <<< 25) ||| v.toNat := by
    simp only [encImm, BitVec.toNat_or, BitVec.toNat_shiftLeft, BitVec.toNat_ofNat, Nat.shiftLeft_eq]
    congr 2
    all_goals omega
  rw [e, Nat.or_assoc, ← Nat.shiftLeft_add_eq_or_of_lt (i := 25) h a.val,
    ← Nat.shiftLeft_add_eq_or_of_lt (i := 28) (by simp only [Nat.shiftLeft_eq]; omega) 13]
  simp only [Nat.shiftLeft_eq]
  omega

/-! ## The image's byte order -/

/-- The first byte is the most significant (20_memory.md R64). -/
theorem wordOfBytes_toNat (k0 k1 k2 k3 : Byte) :
    (wordOfBytes k0 k1 k2 k3).toNat = k0.toNat * 2 ^ 24 + k1.toNat * 2 ^ 16 + k2.toNat * 2 ^ 8 + k3.toNat := by
  have h0 := k0.isLt
  have h1 := k1.isLt
  have h2 := k2.isLt
  have h3 := k3.isLt
  have e : (wordOfBytes k0 k1 k2 k3).toNat =
      ((k0.toNat <<< 24 ||| k1.toNat <<< 16) ||| k2.toNat <<< 8) ||| k3.toNat := by
    simp only [wordOfBytes, BitVec.toNat_or, BitVec.toNat_shiftLeft, BitVec.toNat_setWidth, Nat.shiftLeft_eq]
    congr 3 <;> omega
  rw [e, Nat.or_assoc, Nat.or_assoc, ← Nat.shiftLeft_add_eq_or_of_lt (i := 8) h3 k2.toNat,
    ← Nat.shiftLeft_add_eq_or_of_lt (i := 16) (by simp only [Nat.shiftLeft_eq]; omega) k1.toNat,
    ← Nat.shiftLeft_add_eq_or_of_lt (i := 24) (by simp only [Nat.shiftLeft_eq]; omega) k0.toNat]
  simp only [Nat.shiftLeft_eq]
  omega

end Sys2Proof
end

