-- ==== Sys2Proof/Laws/Memory.lean ====
section
/-! SUPPORT. Laws of one array and of the handle table: a read after a write, the canonical form, and what each memory operation can do. -/

namespace Sys2Proof.Machine

/-! ## Cells -/

/-- Offsets strictly rising, the order part of the canonical form. -/
abbrev Rising (cs : List (Nat × Word)) : Prop := cs.Pairwise (fun x y => x.1 < y.1)

/-- Every entry of `cellsSet cs i v` is an old one or the new one. -/
theorem mem_cellsSet {cs : List (Nat × Word)} {i : Nat} {v : Word} {x : Nat × Word}
    (h : x ∈ cellsSet cs i v) : x ∈ cs ∨ (x = (i, v) ∧ v ≠ 0#32) := by
  induction cs with
  | nil =>
    simp only [cellsSet] at h
    split at h <;> simp_all
  | cons c cs ih =>
    simp only [cellsSet] at h
    split_ifs at h <;> simp only [List.mem_cons] at h ⊢ <;> tauto

theorem cellsSet_rising {cs : List (Nat × Word)} (i : Nat) (v : Word) (h : Rising cs) : Rising (cellsSet cs i v) := by
  induction cs with
  | nil => simp only [cellsSet]; split <;> simp [Rising]
  | cons c cs ih =>
    obtain ⟨hc, hcs⟩ := List.pairwise_cons.mp h
    simp only [cellsSet]
    split_ifs with h1 h2 h3 h4
    · exact h
    · refine List.pairwise_cons.mpr ⟨fun y hy => ?_, h⟩
      rcases List.mem_cons.mp hy with rfl | hy
      · exact h1
      · exact h1.trans (hc y hy)
    · exact hcs
    · exact List.pairwise_cons.mpr ⟨fun y hy => h3 ▸ hc y hy, hcs⟩
    · refine List.pairwise_cons.mpr ⟨fun y hy => ?_, ih hcs⟩
      rcases mem_cellsSet hy with hy | ⟨rfl, -⟩
      · exact hc y hy
      · simp only; omega

theorem cellsGet_of_below {cs : List (Nat × Word)} {i : Nat} (h : ∀ x ∈ cs, i < x.1) : cellsGet cs i = 0#32 := by
  induction cs with
  | nil => rfl
  | cons c cs ih =>
    have hc := h c (by simp)
    have : c.1 ≠ i := by omega
    simp only [cellsGet, this, if_false]
    exact ih fun x hx => h x (by simp [hx])

/-- A read after a write: the written offset holds the value, every other what it held. -/
theorem cellsGet_cellsSet {cs : List (Nat × Word)} (i : Nat) (v : Word) (j : Nat) (h : Rising cs) :
    cellsGet (cellsSet cs i v) j = if j = i then v else cellsGet cs j := by
  induction cs with
  | nil =>
    by_cases hv : v = 0#32
    · simp [cellsSet, cellsGet, hv]
    · simp [cellsSet, cellsGet, hv, eq_comm]
  | cons c cs ih =>
    obtain ⟨k, u⟩ := c
    obtain ⟨hc, hcs⟩ := List.pairwise_cons.mp h
    simp only at hc
    rcases lt_trichotomy i k with hlt | rfl | hgt
    · have absent : cellsGet ((k, u) :: cs) i = 0#32 := by
        refine cellsGet_of_below fun x hx => ?_
        rcases List.mem_cons.mp hx with rfl | hx
        · exact hlt
        · exact hlt.trans (hc x hx)
      by_cases hv : v = 0#32
      · simp only [cellsSet, hlt, hv, if_true]
        split
        · subst_vars; exact absent
        · rfl
      · simp only [cellsSet, hlt, hv, if_true, if_false, cellsGet, eq_comm]
    · by_cases hv : v = 0#32
      · simp only [cellsSet, lt_irrefl, hv, if_true, if_false, cellsGet]
        split
        · subst_vars; exact cellsGet_of_below fun x hx => hc x hx
        · rw [if_neg (Ne.symm ‹_›)]
      · simp only [cellsSet, lt_irrefl, hv, if_true, if_false, cellsGet, eq_comm]
        split <;> simp_all
    · have h1 : ¬ i < k := by omega
      have h2 : i ≠ k := by omega
      simp only [cellsSet, h1, h2, if_false, cellsGet, ih hcs]
      by_cases hk : k = j
      · rw [if_pos hk, if_neg (by omega), if_pos hk]
      · rw [if_neg hk, if_neg hk]

/-- Equal reads make equal cells: the canonical form leaves no choice. -/
theorem cells_ext {cs ds : List (Nat × Word)} (hc : Rising cs) (hd : Rising ds)
    (nc : ∀ x ∈ cs, x.2 ≠ 0#32) (nd : ∀ x ∈ ds, x.2 ≠ 0#32)
    (h : ∀ i, cellsGet cs i = cellsGet ds i) : cs = ds := by
  induction cs generalizing ds with
  | nil =>
    cases ds with
    | nil => rfl
    | cons d ds => exact absurd (by simpa [cellsGet] using (h d.1).symm) (nd d (by simp))
  | cons c cs ih =>
    cases ds with
    | nil => exact absurd (by simpa [cellsGet] using h c.1) (nc c (by simp))
    | cons d ds =>
      obtain ⟨k, u⟩ := c
      obtain ⟨l, v⟩ := d
      obtain ⟨hck, hcs⟩ := List.pairwise_cons.mp hc
      obtain ⟨hdl, hds⟩ := List.pairwise_cons.mp hd
      simp only at hck hdl
      have nu : u ≠ 0#32 := nc (k, u) (by simp)
      have nv : v ≠ 0#32 := nd (l, v) (by simp)
      have hkl : k = l := by
        rcases lt_trichotomy k l with hlt | e | hlt
        · refine absurd (h k) ?_
          rw [cellsGet_of_below (cs := (l, v) :: ds) (fun x hx => by
            rcases List.mem_cons.mp hx with rfl | hx
            · exact hlt
            · exact hlt.trans (hdl x hx))]
          simpa [cellsGet] using nu
        · exact e
        · refine absurd (h l) ?_
          rw [cellsGet_of_below (cs := (k, u) :: cs) (fun x hx => by
            rcases List.mem_cons.mp hx with rfl | hx
            · exact hlt
            · exact hlt.trans (hck x hx))]
          simp only [cellsGet, if_true]
          exact fun e => nv e.symm
      subst hkl
      have huv : u = v := by simpa [cellsGet] using h k
      subst huv
      congr 1
      refine ih hcs hds (fun x hx => nc x (by simp [hx])) (fun x hx => nd x (by simp [hx])) fun i => ?_
      by_cases hi : k = i
      · subst hi
        rw [cellsGet_of_below hck, cellsGet_of_below hdl]
      · simpa [cellsGet, hi] using h i

/-! ## One array -/

theorem Arr.wf_rising {a : Arr} (h : a.wf) : Rising a.cells := h.2.1

@[simp] theorem Arr.zeros_len (n : Nat) : (Arr.zeros n).len = n := rfl
@[simp] theorem Arr.zeros_read (n i : Nat) : (Arr.zeros n).read i = 0#32 := rfl
@[simp] theorem Arr.write_len (a : Arr) (i : Nat) (v : Word) : (a.write i v).len = a.len := rfl
@[simp] theorem Arr.ofWords_len (ws : List Word) : (Arr.ofWords ws).len = ws.length := rfl

theorem Arr.zeros_wf {n : Nat} (h : n < 2 ^ 32) : (Arr.zeros n).wf := ⟨h, by simp [Arr.zeros], by simp [Arr.zeros]⟩

/-- A read after a write of the same array (20_memory.md R58). -/
theorem Arr.read_write {a : Arr} (h : a.wf) (i j : Nat) (v : Word) :
    (a.write i v).read j = if j = i then v else a.read j :=
  cellsGet_cellsSet i v j (Arr.wf_rising h)

theorem Arr.write_wf {a : Arr} (h : a.wf) {i : Nat} (hi : i < a.len) (v : Word) : (a.write i v).wf := by
  refine ⟨h.1, cellsSet_rising i v h.2.1, fun x hx => ?_⟩
  rcases mem_cellsSet hx with hx | ⟨rfl, hv⟩
  · exact h.2.2 x hx
  · exact ⟨hi, hv⟩

@[simp] theorem Arr.place_len (a : Arr) (i : Nat) (v : Word) : (a.place i v).len = max a.len (i + 1) := rfl

theorem Arr.read_place {a : Arr} (h : a.wf) (i j : Nat) (v : Word) :
    (a.place i v).read j = if j = i then v else a.read j :=
  cellsGet_cellsSet i v j (Arr.wf_rising h)

theorem cellsGet_of_absent {cs : List (Nat × Word)} {i : Nat} (h : ∀ x ∈ cs, x.1 ≠ i) : cellsGet cs i = 0#32 := by
  induction cs with
  | nil => rfl
  | cons c cs ih =>
    rw [cellsGet, if_neg (h c (by simp))]
    exact ih fun x hx => h x (by simp [hx])

/-- Nothing is listed beyond an array's end. -/
theorem Arr.read_beyond {a : Arr} (h : a.wf) {i : Nat} (hi : a.len ≤ i) : a.read i = 0#32 :=
  cellsGet_of_absent fun x hx => (Nat.lt_of_lt_of_le (h.2.2 x hx).1 hi).ne

/-- Arrays of one length that read alike are equal data. -/
theorem Arr.ext_of_read {a b : Arr} (ha : a.wf) (hb : b.wf) (hl : a.len = b.len)
    (h : ∀ i, a.read i = b.read i) : a = b := by
  obtain ⟨la, ca⟩ := a
  obtain ⟨lb, cb⟩ := b
  simp only at hl
  subst hl
  congr 1
  exact cells_ext ha.2.1 hb.2.1 (fun x hx => (ha.2.2 x hx).2) (fun x hx => (hb.2.2 x hx).2) h

theorem mem_cellsOfWords {ws : List Word} {k : Nat} {x : Nat × Word} (h : x ∈ cellsOfWords k ws) :
    k ≤ x.1 ∧ x.1 < k + ws.length ∧ x.2 ≠ 0#32 := by
  induction ws generalizing k with
  | nil => simp [cellsOfWords] at h
  | cons w ws ih =>
    simp only [cellsOfWords] at h
    simp only [List.length_cons]
    split at h
    · obtain ⟨h1, h2, h3⟩ := ih h
      exact ⟨by omega, by omega, h3⟩
    · rcases List.mem_cons.mp h with rfl | h
      · exact ⟨le_rfl, by simp only; omega, ‹_›⟩
      · obtain ⟨h1, h2, h3⟩ := ih h
        exact ⟨by omega, by omega, h3⟩

theorem cellsOfWords_rising (ws : List Word) (k : Nat) : Rising (cellsOfWords k ws) := by
  induction ws generalizing k with
  | nil => simp [cellsOfWords, Rising]
  | cons w ws ih =>
    simp only [cellsOfWords]
    split
    · exact ih _
    · exact List.pairwise_cons.mpr ⟨fun y hy => by have := (mem_cellsOfWords hy).1; simp only; omega, ih _⟩

theorem cellsGet_cellsOfWords (ws : List Word) (k j : Nat) : cellsGet (cellsOfWords k ws) (k + j) = ws.getD j 0#32 := by
  induction ws generalizing k j with
  | nil => simp [cellsOfWords, cellsGet]
  | cons w ws ih =>
    have below : cellsGet (cellsOfWords (k + 1) ws) k = 0#32 :=
      cellsGet_of_below fun x hx => (mem_cellsOfWords hx).1
    have shift (j : Nat) : cellsGet (cellsOfWords (k + 1) ws) (k + (j + 1)) = ws.getD j 0#32 := by
      rw [← ih (k + 1) j]; congr 1; omega
    simp only [cellsOfWords]
    cases j with
    | zero =>
      split
      · simpa [‹w = 0#32›] using below
      · simp [cellsGet]
    | succ j =>
      split
      · simpa using shift j
      · simpa [cellsGet] using shift j

/-- The array of a list of words holds them in order (70_reset_and_hazards.md R220). -/
theorem Arr.read_ofWords (ws : List Word) (i : Nat) : (Arr.ofWords ws).read i = ws.getD i 0#32 := by
  simpa [Arr.read, Arr.ofWords] using cellsGet_cellsOfWords ws 0 i

theorem Arr.ofWords_wf {ws : List Word} (h : ws.length < 2 ^ 32) : (Arr.ofWords ws).wf :=
  ⟨h, cellsOfWords_rising ws 0, fun x hx => by
    obtain ⟨-, h2, h3⟩ := mem_cellsOfWords hx
    exact ⟨by simpa [Arr.ofWords] using h2, h3⟩⟩

/-! ## The handle table: lookups after an update -/

@[simp] theorem Memory.lookup_zero (m : Memory) : m.lookup 0 = some m.array0 := rfl

theorem Memory.lookup_succ (m : Memory) (k : Nat) : m.lookup (k + 1) = (m.slots[k]?).join := rfl

/-- What the three views of a handle say, in terms of one lookup. -/
theorem Memory.wordAt_of_lookup {m : Memory} {h : Nat} {a : Arr} (ha : m.lookup h = some a) (i : Nat) :
    m.wordAt h i = if i < a.len then some (a.read i) else none := by simp [Memory.wordAt, ha]

theorem Memory.wordAt_of_inactive {m : Memory} {h : Nat} (ha : m.lookup h = none) (i : Nat) : m.wordAt h i = none := by
  simp [Memory.wordAt, ha]

theorem Memory.lenOf_of_lookup {m : Memory} {h : Nat} {a : Arr} (ha : m.lookup h = some a) : m.lenOf h = some a.len := by
  simp [Memory.lenOf, ha]

theorem Memory.lenOf_of_inactive {m : Memory} {h : Nat} (ha : m.lookup h = none) : m.lenOf h = none := by
  simp [Memory.lenOf, ha]

theorem Memory.active_iff {m : Memory} {h : Nat} : m.active h = true ↔ ∃ a, m.lookup h = some a := by
  simp [Memory.active, Option.isSome_iff_exists]

/-- A handle with a length is active, and one without is not. -/
theorem Memory.lookup_of_lenOf {m : Memory} {h n : Nat} (e : m.lenOf h = some n) :
    ∃ a, m.lookup h = some a ∧ a.len = n := by simpa [Memory.lenOf] using e

theorem Memory.lookup_of_lenOf_none {m : Memory} {h : Nat} (e : m.lenOf h = none) : m.lookup h = none := by
  simpa [Memory.lenOf] using e

/-- Views agree where lookups agree. -/
theorem Memory.wordAt_congr {m n : Memory} {h g : Nat} (e : m.lookup h = n.lookup g) (i : Nat) :
    m.wordAt h i = n.wordAt g i := by simp [Memory.wordAt, e]

theorem Memory.lenOf_congr {m n : Memory} {h g : Nat} (e : m.lookup h = n.lookup g) : m.lenOf h = n.lenOf g := by
  simp [Memory.lenOf, e]

/-- An active handle other than 0 is a slot that holds its array. -/
theorem Memory.slots_of_lookup {m : Memory} {k : Nat} {a : Arr} (h : m.lookup (k + 1) = some a) :
    m.slots[k]? = some (some a) := by
  simpa [Memory.lookup_succ, Option.join_eq_some_iff] using h

theorem Memory.lookup_replace {m : Memory} {h : Nat} {a : Arr} (ha : m.lookup h = some a) (b : Arr) (g : Nat) :
    (m.replace h b).lookup g = if g = h then some b else m.lookup g := by
  cases h with
  | zero => cases g <;> simp [Memory.replace, Memory.lookup]
  | succ k =>
    cases g with
    | zero => simp [Memory.replace]
    | succ l =>
      have hk : k < m.slots.length := (List.getElem?_eq_some_iff.mp (m.slots_of_lookup ha)).1
      simp only [Memory.replace, Memory.lookup_succ, List.getElem?_set, Nat.succ_inj]
      by_cases e : k = l
      · subst e; simp [hk]
      · simp [e, Ne.symm e]

/-- The table with slot `k + 1` made inactive. -/
theorem Memory.lookup_setNone (m : Memory) (k g : Nat) :
    ({ m with slots := m.slots.set k none } : Memory).lookup g = if g = k + 1 then none else m.lookup g := by
  cases g with
  | zero => simp
  | succ l =>
    simp only [Memory.lookup_succ, List.getElem?_set, Nat.succ_inj]
    by_cases e : k = l
    · subst e; by_cases hk : k < m.slots.length <;> simp [hk]
    · simp [e, Ne.symm e]

theorem Memory.lookup_array0 (m : Memory) (a : Arr) (g : Nat) :
    ({ m with array0 := a } : Memory).lookup g = if g = 0 then some a else m.lookup g := by
  cases g <;> simp [Memory.lookup]

/-! ## Choosing a slot -/

theorem firstFree_le (os : List (Option Arr)) : firstFree os ≤ os.length := by
  induction os with
  | nil => simp [firstFree]
  | cons o os ih => cases o <;> simp [firstFree]; omega

/-- The chosen position holds no array. -/
theorem firstFree_inactive (os : List (Option Arr)) : (os[firstFree os]?).join = none := by
  induction os with
  | nil => simp [firstFree]
  | cons o os ih => cases o <;> simp [firstFree, ih]

/-- Every position before the chosen one holds an array. -/
theorem firstFree_lowest {os : List (Option Arr)} {k : Nat} (h : k < firstFree os) : ∃ a, os[k]? = some (some a) := by
  induction os generalizing k with
  | nil => simp [firstFree] at h
  | cons o os ih =>
    cases o with
    | none => simp [firstFree] at h
    | some a =>
      cases k with
      | zero => simp
      | succ k => simpa using ih (by simpa [firstFree] using h)

/-- The chosen position is the only one with these two properties. -/
theorem firstFree_unique {os : List (Option Arr)} {k : Nat} (free : (os[k]?).join = none)
    (lowest : ∀ l < k, ∃ a, os[l]? = some (some a)) : firstFree os = k := by
  rcases lt_trichotomy (firstFree os) k with h | h | h
  · obtain ⟨a, ha⟩ := lowest _ h
    have := firstFree_inactive os
    rw [ha] at this
    simp at this
  · exact h
  · obtain ⟨a, ha⟩ := firstFree_lowest h
    rw [ha] at free
    simp at free

theorem placeSlot_getElem? {os : List (Option Arr)} {k : Nat} (hk : k ≤ os.length) (a : Arr) (l : Nat) :
    (placeSlot os k a)[l]? = if l = k then some (some a) else os[l]? := by
  induction os generalizing k l with
  | nil =>
    have : k = 0 := by simpa using hk
    subst this
    cases l <;> simp [placeSlot]
  | cons o os ih =>
    cases k with
    | zero => cases l <;> simp [placeSlot]
    | succ k =>
      cases l with
      | zero => simp [placeSlot]
      | succ l => simpa [placeSlot] using ih (by simpa using hk) l

theorem placeSlot_length {os : List (Option Arr)} {k : Nat} (hk : k ≤ os.length) (a : Arr) :
    (placeSlot os k a).length = max os.length (k + 1) := by
  induction os generalizing k with
  | nil =>
    have : k = 0 := by simpa using hk
    subst this
    simp [placeSlot]
  | cons o os ih =>
    cases k with
    | zero => simp [placeSlot]
    | succ k => simp [placeSlot, ih (k := k) (by simpa using hk)]

theorem mem_placeSlot {os : List (Option Arr)} {k : Nat} {a : Arr} {o : Option Arr} (h : o ∈ placeSlot os k a) :
    o ∈ os ∨ o = some a := by
  induction os generalizing k with
  | nil => right; simpa [placeSlot] using h
  | cons p os ih =>
    cases k with
    | zero => simp only [placeSlot, List.mem_cons] at h ⊢; tauto
    | succ k =>
      simp only [placeSlot, List.mem_cons] at h ⊢
      rcases h with h | h
      · tauto
      · rcases ih h with h | h <;> tauto

/-! ## Words in use -/

/-- Emptying the slot of an array frees its words (20_memory.md R59). -/
theorem slotsWords_setNone {os : List (Option Arr)} {k : Nat} {a : Arr} (h : os[k]? = some (some a)) :
    slotsWords (os.set k none) + a.len = slotsWords os := by
  induction os generalizing k with
  | nil => simp at h
  | cons o os ih =>
    cases k with
    | zero =>
      have : o = some a := by simpa using h
      subst this
      simp [slotsWords, slotWords, Nat.add_comm]
    | succ k =>
      have := ih (k := k) (by simpa using h)
      simp only [List.set_cons_succ, slotsWords]
      omega

theorem slotsWords_setSome {os : List (Option Arr)} {k : Nat} {a : Arr} (h : os[k]? = some (some a)) (b : Arr)
    (hb : b.len = a.len) : slotsWords (os.set k (some b)) = slotsWords os := by
  induction os generalizing k with
  | nil => simp at h
  | cons o os ih =>
    cases k with
    | zero =>
      have : o = some a := by simpa using h
      subst this
      simp [slotsWords, slotWords, hb]
    | succ k => simp [slotsWords, ih (k := k) (by simpa using h)]

theorem slotsWords_placeSlot {os : List (Option Arr)} {k : Nat} (a : Arr) (hk : (os[k]?).join = none)
    (hl : k ≤ os.length) : slotsWords (placeSlot os k a) = slotsWords os + a.len := by
  induction os generalizing k with
  | nil =>
    have : k = 0 := by simpa using hl
    subst this
    simp [placeSlot, slotsWords, slotWords]
  | cons o os ih =>
    cases k with
    | zero =>
      have : o = none := by simpa using hk
      subst this
      simp [placeSlot, slotsWords, slotWords, Nat.add_comm]
    | succ k =>
      have := ih (k := k) (by simpa using hk) (by simpa using hl)
      simp only [placeSlot, slotsWords, this]
      omega

theorem Memory.array0_le_used (m : Memory) : m.array0.len ≤ m.used := Nat.le_add_right _ _

/-! ## What each operation can do -/

/-- INDEX's operation answers the word at the address, and only that (20_memory.md R57). -/
theorem Memory.index_ok_iff {m : Memory} {h i v : Word} :
    m.index h i = .ok v ↔ m.wordAt h.toNat i.toNat = some v := by
  unfold Memory.index Memory.wordAt
  cases m.lookup h.toNat with
  | none => simp
  | some a => by_cases hi : i.toNat < a.len <;> simp [hi]

theorem Memory.index_inactive {m : Memory} {h : Word} (i : Word) (ha : m.lookup h.toNat = none) :
    m.index h i = .error .inactiveHandle := by simp [Memory.index, ha]

theorem Memory.index_oob {m : Memory} {h i : Word} {a : Arr} (ha : m.lookup h.toNat = some a)
    (hi : a.len ≤ i.toNat) : m.index h i = .error .offsetOob := by simp [Memory.index, ha, hi]

theorem Memory.index_ok {m : Memory} {h i : Word} {a : Arr} (ha : m.lookup h.toNat = some a)
    (hi : i.toNat < a.len) : m.index h i = .ok (a.read i.toNat) := by simp [Memory.index, ha, hi]

theorem Memory.amend_inactive {m : Memory} {h : Word} (i v : Word) (ha : m.lookup h.toNat = none) :
    m.amend h i v = .error .inactiveHandle := by simp [Memory.amend, ha]

theorem Memory.amend_oob {m : Memory} {h i : Word} {a : Arr} (v : Word) (ha : m.lookup h.toNat = some a)
    (hi : a.len ≤ i.toNat) : m.amend h i v = .error .offsetOob := by simp [Memory.amend, ha, hi]

theorem Memory.amend_ok {m : Memory} {h i : Word} {a : Arr} (v : Word) (ha : m.lookup h.toNat = some a)
    (hi : i.toNat < a.len) : m.amend h i v = .ok (m.replace h.toNat (a.write i.toNat v)) := by
  simp [Memory.amend, ha, hi]

/-- Every way AMEND's operation can answer a table (20_memory.md R58). -/
theorem Memory.amend_cases {m n : Memory} {h i v : Word} (e : m.amend h i v = .ok n) :
    ∃ a, m.lookup h.toNat = some a ∧ i.toNat < a.len ∧ n = m.replace h.toNat (a.write i.toNat v) := by
  cases ha : m.lookup h.toNat with
  | none => simp [m.amend_inactive i v ha] at e
  | some a =>
    by_cases hi : i.toNat < a.len
    · rw [Memory.amend_ok v ha hi] at e
      exact ⟨a, rfl, hi, (Except.ok.inj e).symm⟩
    · rw [Memory.amend_oob v ha (not_lt.mp hi)] at e
      cases e

theorem Memory.abandon_zero {m : Memory} {h : Word} (hz : h.toNat = 0) : m.abandon h = .error .abandonZero := by
  simp [Memory.abandon, hz]

theorem Memory.abandon_inactive {m : Memory} {h : Word} (hz : h.toNat ≠ 0) (ha : m.lookup h.toNat = none) :
    m.abandon h = .error .abandonInactive := by
  obtain ⟨k, hk⟩ := Nat.exists_eq_succ_of_ne_zero hz
  simp only [hk] at ha
  simp [Memory.abandon, hk, ha]

theorem Memory.abandon_ok {m : Memory} {h : Word} {a : Arr} {k : Nat} (hk : h.toNat = k + 1)
    (ha : m.lookup (k + 1) = some a) : m.abandon h = .ok { m with slots := m.slots.set k none } := by
  simp [Memory.abandon, hk, ha]

/-- Every way ABAND's operation can answer a table (20_memory.md R59). -/
theorem Memory.abandon_cases {m n : Memory} {h : Word} (e : m.abandon h = .ok n) :
    ∃ k a, h.toNat = k + 1 ∧ m.slots[k]? = some (some a) ∧ n = { m with slots := m.slots.set k none } := by
  cases hz : h.toNat with
  | zero => simp [Memory.abandon_zero hz] at e
  | succ k =>
    cases ha : m.lookup (k + 1) with
    | none => simp [m.abandon_inactive (by omega) (hz ▸ ha)] at e
    | some a =>
      rw [m.abandon_ok hz ha] at e
      exact ⟨k, a, rfl, m.slots_of_lookup ha, (Except.ok.inj e).symm⟩

theorem Memory.duplicate_zero (m : Memory) (c : Option Nat) : m.duplicateIntoZero c 0#32 = .ok m := rfl

/-- Every way LOADP's operation can answer a table (20_memory.md R60). -/
theorem Memory.duplicate_cases {m n : Memory} {c : Option Nat} {h : Word} (e : m.duplicateIntoZero c h = .ok n) :
    (h = 0#32 ∧ n = m) ∨
    (h ≠ 0#32 ∧ ∃ a, m.lookup h.toNat = some a ∧ exceeds (m.used - m.array0.len + a.len) c = false ∧
      n = { m with array0 := a }) := by
  unfold Memory.duplicateIntoZero at e
  split at e
  · exact .inl ⟨‹_›, (Except.ok.inj e).symm⟩
  · right
    refine ⟨‹_›, ?_⟩
    split at e
    · cases e
    · split at e
      · cases e
      · exact ⟨_, ‹_›, Bool.eq_false_iff.mpr ‹_›, (Except.ok.inj e).symm⟩

/-- Every way ALLOC's operation can answer a table and a handle (20_memory.md R54 to R56). -/
theorem Memory.allocate_cases {m : Memory} {c : Option Nat} {size : Word} {r : Memory × Word}
    (e : m.allocate c size = .ok r) :
    exceeds (m.used + size.toNat) c = false ∧ m.allocateHandle < 2 ^ 32 ∧
      r.1 = { m with slots := placeSlot m.slots (firstFree m.slots) (Arr.zeros size.toNat) } ∧
      r.2.toNat = m.allocateHandle := by
  unfold Memory.allocate at e
  split at e
  · cases e
  · rename_i hn
    cases e
    simp only [Bool.or_eq_true, decide_eq_true_eq, not_or, not_le, Bool.not_eq_true] at hn
    exact ⟨hn.1, hn.2, rfl, by simpa using Nat.mod_eq_of_lt hn.2⟩

theorem Memory.allocate_ok {m : Memory} {c : Option Nat} {size : Word}
    (hc : exceeds (m.used + size.toNat) c = false) (hh : m.allocateHandle < 2 ^ 32) :
    m.allocate c size = .ok ({ m with slots := placeSlot m.slots (firstFree m.slots) (Arr.zeros size.toNat) },
      BitVec.ofNat 32 m.allocateHandle) := by
  rw [Memory.allocate, hc, if_neg (by simpa using hh)]

/-- After an allocation the new handle names the zeroed array and every other handle what it named. -/
theorem Memory.lookup_placeSlot (m : Memory) (a : Arr) (g : Nat) :
    ({ m with slots := placeSlot m.slots (firstFree m.slots) a } : Memory).lookup g =
      if g = m.allocateHandle then some a else m.lookup g := by
  cases g with
  | zero => simp [Memory.allocateHandle]
  | succ l =>
    simp only [Memory.lookup_succ, placeSlot_getElem? (firstFree_le m.slots), Memory.allocateHandle, Nat.succ_inj]
    split <;> simp

/-! ## Every operation keeps the canonical form -/

theorem Memory.lookup_wf {m : Memory} (h : m.wf) {g : Nat} {a : Arr} (ha : m.lookup g = some a) : a.wf := by
  cases g with
  | zero => exact (by simpa using ha) ▸ h.1
  | succ k => exact h.2.1 _ (List.mem_of_getElem? (m.slots_of_lookup ha)) a rfl

theorem Memory.replace_wf {m : Memory} (h : m.wf) (g : Nat) {a : Arr} (ha : a.wf) : (m.replace g a).wf := by
  cases g with
  | zero => exact ⟨ha, h.2.1, h.2.2⟩
  | succ k =>
    refine ⟨h.1, fun o ho b hb => ?_, by simpa [Memory.replace] using h.2.2⟩
    rcases List.mem_or_eq_of_mem_set ho with ho | rfl
    · exact h.2.1 o ho b hb
    · exact (by simpa using hb) ▸ ha

theorem Memory.amend_wf {m n : Memory} {h i v : Word} (hm : m.wf) (e : m.amend h i v = .ok n) : n.wf := by
  obtain ⟨a, ha, hi, rfl⟩ := Memory.amend_cases e
  exact Memory.replace_wf hm _ (Arr.write_wf (Memory.lookup_wf hm ha) hi v)

theorem Memory.abandon_wf {m n : Memory} {h : Word} (hm : m.wf) (e : m.abandon h = .ok n) : n.wf := by
  obtain ⟨k, a, -, -, rfl⟩ := Memory.abandon_cases e
  refine ⟨hm.1, fun o ho b hb => ?_, by simpa using hm.2.2⟩
  rcases List.mem_or_eq_of_mem_set ho with ho | rfl
  · exact hm.2.1 o ho b hb
  · cases hb

theorem Memory.duplicate_wf {m n : Memory} {c : Option Nat} {h : Word} (hm : m.wf)
    (e : m.duplicateIntoZero c h = .ok n) : n.wf := by
  rcases Memory.duplicate_cases e with ⟨-, rfl⟩ | ⟨-, a, ha, -, rfl⟩
  · exact hm
  · exact ⟨Memory.lookup_wf hm ha, hm.2.1, hm.2.2⟩

theorem Memory.allocate_wf {m : Memory} {c : Option Nat} {size : Word} {r : Memory × Word} (hm : m.wf)
    (e : m.allocate c size = .ok r) : r.1.wf := by
  obtain ⟨-, hh, hr, -⟩ := Memory.allocate_cases e
  rw [hr]
  refine ⟨hm.1, fun o ho b hb => ?_, ?_⟩
  · rcases mem_placeSlot ho with ho | rfl
    · exact hm.2.1 o ho b hb
    · exact (by simpa using hb) ▸ Arr.zeros_wf size.isLt
  · have := hm.2.2
    simp only [placeSlot_length (firstFree_le m.slots)]
    unfold Memory.allocateHandle at hh
    omega

/-! ## Every operation keeps within CAPACITY -/

theorem exceeds_eq_false_iff {n : Nat} {c : Option Nat} : exceeds n c = false ↔ ∀ k, c = some k → n ≤ k := by
  cases c <;> simp [exceeds]

theorem exceeds_eq_true_iff {n : Nat} {c : Option Nat} : exceeds n c = true ↔ ∃ k, c = some k ∧ k < n := by
  cases c <;> simp [exceeds]

theorem exceeds_mono {n k : Nat} {c : Option Nat} (h : exceeds k c = false) (hn : n ≤ k) : exceeds n c = false := by
  cases c with
  | none => rfl
  | some c => simp only [exceeds, decide_eq_false_iff_not, not_lt] at h ⊢; omega

theorem Memory.replace_used {m : Memory} {h : Nat} {a b : Arr} (ha : m.lookup h = some a) (hb : b.len = a.len) :
    (m.replace h b).used = m.used := by
  cases h with
  | zero =>
    have : m.array0 = a := by simpa using ha
    simp [Memory.replace, Memory.used, hb, this]
  | succ k => simp [Memory.replace, Memory.used, slotsWords_setSome (m.slots_of_lookup ha) b hb]

theorem Memory.amend_used {m n : Memory} {h i v : Word} (e : m.amend h i v = .ok n) : n.used = m.used := by
  obtain ⟨a, ha, -, rfl⟩ := Memory.amend_cases e
  exact Memory.replace_used ha rfl

/-- Abandoning an array takes its words off `used` (20_memory.md R59). -/
theorem Memory.abandon_used {m n : Memory} {h : Word} (e : m.abandon h = .ok n) :
    ∃ a, m.lookup h.toNat = some a ∧ n.used + a.len = m.used := by
  obtain ⟨k, a, hk, hs, rfl⟩ := Memory.abandon_cases e
  refine ⟨a, by simp [hk, Memory.lookup_succ, hs], ?_⟩
  have := slotsWords_setNone hs
  simp only [Memory.used]
  omega

theorem Memory.duplicate_used {m n : Memory} {c : Option Nat} {h : Word} (e : m.duplicateIntoZero c h = .ok n) :
    n = m ∨ exceeds n.used c = false := by
  rcases Memory.duplicate_cases e with ⟨-, rfl⟩ | ⟨-, a, -, hc, rfl⟩
  · exact .inl rfl
  · refine .inr (exceeds_mono hc ?_)
    simp only [Memory.used]
    omega

theorem Memory.allocate_used {m : Memory} {c : Option Nat} {size : Word} {r : Memory × Word}
    (e : m.allocate c size = .ok r) : exceeds r.1.used c = false := by
  obtain ⟨hc, -, hr, -⟩ := Memory.allocate_cases e
  rw [hr]
  refine exceeds_mono hc ?_
  simp only [Memory.used, slotsWords_placeSlot _ (firstFree_inactive m.slots) (firstFree_le m.slots), Arr.zeros_len]
  omega

end Sys2Proof.Machine
end

