-- ==== Sys2Proof/Laws/State.lean ====
section
/-! SUPPORT. One lemma per field per update of State, and what a register reads after an update, so that no proof unfolds a record update. -/

namespace Sys2Proof.Machine.State

variable (s : State)

/-! ## writeReg -/

@[simp] theorem writeReg_regs (r : Reg) (v : Word) : (s.writeReg r v).regs = s.regs.set r v := rfl
@[simp] theorem writeReg_finger (r : Reg) (v : Word) : (s.writeReg r v).finger = s.finger := rfl
@[simp] theorem writeReg_run (r : Reg) (v : Word) : (s.writeReg r v).run = s.run := rfl
@[simp] theorem writeReg_fault (r : Reg) (v : Word) : (s.writeReg r v).fault = s.fault := rfl
@[simp] theorem writeReg_mem (r : Reg) (v : Word) : (s.writeReg r v).mem = s.mem := rfl
@[simp] theorem writeReg_output (r : Reg) (v : Word) : (s.writeReg r v).output = s.output := rfl
@[simp] theorem writeReg_capacity (r : Reg) (v : Word) : (s.writeReg r v).capacity = s.capacity := rfl
@[simp] theorem writeReg_input (r : Reg) (v : Word) : (s.writeReg r v).input = s.input := rfl

/-! ## advance -/

@[simp] theorem advance_regs : (s.advance).regs = s.regs := rfl
@[simp] theorem advance_finger : (s.advance).finger = s.finger + 1#32 := rfl
@[simp] theorem advance_run : (s.advance).run = s.run := rfl
@[simp] theorem advance_fault : (s.advance).fault = s.fault := rfl
@[simp] theorem advance_mem : (s.advance).mem = s.mem := rfl
@[simp] theorem advance_output : (s.advance).output = s.output := rfl
@[simp] theorem advance_capacity : (s.advance).capacity = s.capacity := rfl
@[simp] theorem advance_input : (s.advance).input = s.input := rfl
@[simp] theorem advance_readReg (q : Reg) : (s.advance).readReg q = s.readReg q := rfl

/-! ## setFinger -/

@[simp] theorem setFinger_regs (f : Word) : (s.setFinger f).regs = s.regs := rfl
@[simp] theorem setFinger_finger (f : Word) : (s.setFinger f).finger = f := rfl
@[simp] theorem setFinger_run (f : Word) : (s.setFinger f).run = s.run := rfl
@[simp] theorem setFinger_fault (f : Word) : (s.setFinger f).fault = s.fault := rfl
@[simp] theorem setFinger_mem (f : Word) : (s.setFinger f).mem = s.mem := rfl
@[simp] theorem setFinger_output (f : Word) : (s.setFinger f).output = s.output := rfl
@[simp] theorem setFinger_capacity (f : Word) : (s.setFinger f).capacity = s.capacity := rfl
@[simp] theorem setFinger_input (f : Word) : (s.setFinger f).input = s.input := rfl
@[simp] theorem setFinger_readReg (f : Word) (q : Reg) : (s.setFinger f).readReg q = s.readReg q := rfl

/-! ## setRun -/

@[simp] theorem setRun_regs (r : RunState) : (s.setRun r).regs = s.regs := rfl
@[simp] theorem setRun_finger (r : RunState) : (s.setRun r).finger = s.finger := rfl
@[simp] theorem setRun_run (r : RunState) : (s.setRun r).run = r := rfl
@[simp] theorem setRun_fault (r : RunState) : (s.setRun r).fault = s.fault := rfl
@[simp] theorem setRun_mem (r : RunState) : (s.setRun r).mem = s.mem := rfl
@[simp] theorem setRun_output (r : RunState) : (s.setRun r).output = s.output := rfl
@[simp] theorem setRun_capacity (r : RunState) : (s.setRun r).capacity = s.capacity := rfl
@[simp] theorem setRun_input (r : RunState) : (s.setRun r).input = s.input := rfl
@[simp] theorem setRun_readReg (r : RunState) (q : Reg) : (s.setRun r).readReg q = s.readReg q := rfl

/-! ## setMem -/

@[simp] theorem setMem_regs (m : Memory) : (s.setMem m).regs = s.regs := rfl
@[simp] theorem setMem_finger (m : Memory) : (s.setMem m).finger = s.finger := rfl
@[simp] theorem setMem_run (m : Memory) : (s.setMem m).run = s.run := rfl
@[simp] theorem setMem_fault (m : Memory) : (s.setMem m).fault = s.fault := rfl
@[simp] theorem setMem_mem (m : Memory) : (s.setMem m).mem = m := rfl
@[simp] theorem setMem_output (m : Memory) : (s.setMem m).output = s.output := rfl
@[simp] theorem setMem_capacity (m : Memory) : (s.setMem m).capacity = s.capacity := rfl
@[simp] theorem setMem_input (m : Memory) : (s.setMem m).input = s.input := rfl
@[simp] theorem setMem_readReg (m : Memory) (q : Reg) : (s.setMem m).readReg q = s.readReg q := rfl

/-! ## emit -/

@[simp] theorem emit_regs (b : Byte) : (s.emit b).regs = s.regs := rfl
@[simp] theorem emit_finger (b : Byte) : (s.emit b).finger = s.finger := rfl
@[simp] theorem emit_run (b : Byte) : (s.emit b).run = s.run := rfl
@[simp] theorem emit_fault (b : Byte) : (s.emit b).fault = s.fault := rfl
@[simp] theorem emit_mem (b : Byte) : (s.emit b).mem = s.mem := rfl
@[simp] theorem emit_output (b : Byte) : (s.emit b).output = s.output ++ [b] := rfl
@[simp] theorem emit_capacity (b : Byte) : (s.emit b).capacity = s.capacity := rfl
@[simp] theorem emit_input (b : Byte) : (s.emit b).input = s.input := rfl
@[simp] theorem emit_readReg (b : Byte) (q : Reg) : (s.emit b).readReg q = s.readReg q := rfl

/-! ## setInput -/

@[simp] theorem setInput_regs (as : List Answer) : (s.setInput as).regs = s.regs := rfl
@[simp] theorem setInput_finger (as : List Answer) : (s.setInput as).finger = s.finger := rfl
@[simp] theorem setInput_run (as : List Answer) : (s.setInput as).run = s.run := rfl
@[simp] theorem setInput_fault (as : List Answer) : (s.setInput as).fault = s.fault := rfl
@[simp] theorem setInput_mem (as : List Answer) : (s.setInput as).mem = s.mem := rfl
@[simp] theorem setInput_output (as : List Answer) : (s.setInput as).output = s.output := rfl
@[simp] theorem setInput_capacity (as : List Answer) : (s.setInput as).capacity = s.capacity := rfl
@[simp] theorem setInput_input (as : List Answer) : (s.setInput as).input = as := rfl
@[simp] theorem setInput_readReg (as : List Answer) (q : Reg) : (s.setInput as).readReg q = s.readReg q := rfl

/-! ## raise -/

@[simp] theorem raise_regs (c : Cause) : (s.raise c).regs = s.regs := rfl
@[simp] theorem raise_finger (c : Cause) : (s.raise c).finger = s.finger := rfl
@[simp] theorem raise_run (c : Cause) : (s.raise c).run = .faulted := rfl
@[simp] theorem raise_fault (c : Cause) : (s.raise c).fault = { kind := c.kind, sub := c.sub, ffinger := s.finger, fplatter := s.platter } := rfl
@[simp] theorem raise_mem (c : Cause) : (s.raise c).mem = s.mem := rfl
@[simp] theorem raise_output (c : Cause) : (s.raise c).output = s.output := rfl
@[simp] theorem raise_capacity (c : Cause) : (s.raise c).capacity = s.capacity := rfl
@[simp] theorem raise_input (c : Cause) : (s.raise c).input = s.input := rfl
@[simp] theorem raise_readReg (c : Cause) (q : Reg) : (s.raise c).readReg q = s.readReg q := rfl

/-! ## answer -/

@[simp] theorem answer_regs (r : Answer) : (s.answer r).regs = s.regs := rfl
@[simp] theorem answer_finger (r : Answer) : (s.answer r).finger = s.finger := rfl
@[simp] theorem answer_run (r : Answer) : (s.answer r).run = s.run := rfl
@[simp] theorem answer_fault (r : Answer) : (s.answer r).fault = s.fault := rfl
@[simp] theorem answer_mem (r : Answer) : (s.answer r).mem = s.mem := rfl
@[simp] theorem answer_output (r : Answer) : (s.answer r).output = s.output := rfl
@[simp] theorem answer_capacity (r : Answer) : (s.answer r).capacity = s.capacity := rfl
@[simp] theorem answer_input (r : Answer) : (s.answer r).input = s.input ++ [r] := rfl
@[simp] theorem answer_readReg (r : Answer) (q : Reg) : (s.answer r).readReg q = s.readReg q := rfl

/-! ## Register reads -/

/-- A register reads what was last written to it; every other register reads as before. -/
theorem readReg_writeReg (r q : Reg) (v : Word) :
    (s.writeReg r v).readReg q = if q = r then v else s.readReg q := by
  simp only [readReg, writeReg, Fin.getElem_fin, Vector.getElem_set, Fin.ext_iff, eq_comm]

@[simp] theorem readReg_writeReg_same (r : Reg) (v : Word) : (s.writeReg r v).readReg r = v := by
  simp [readReg_writeReg]

theorem readReg_writeReg_other (v : Word) (h : q ≠ r) : (s.writeReg r v).readReg q = s.readReg q := by
  simp [readReg_writeReg, h]

/-- Registers that all read alike are the same register file. -/
theorem regs_ext {s t : State} (h : ∀ r : Reg, s.readReg r = t.readReg r) : s.regs = t.regs := by
  exact Vector.ext fun i hi => h ⟨i, hi⟩

/-! ## The fetch looks at the finger and array 0 only -/

@[simp] theorem writeReg_fetch (r : Reg) (v : Word) : (s.writeReg r v).fetch = s.fetch := rfl
@[simp] theorem emit_fetch (b : Byte) : (s.emit b).fetch = s.fetch := rfl
@[simp] theorem setRun_fetch (r : RunState) : (s.setRun r).fetch = s.fetch := rfl
@[simp] theorem setInput_fetch (as : List Answer) : (s.setInput as).fetch = s.fetch := rfl

theorem fetch_eq : s.fetch = s.mem.wordAt 0 s.finger.toNat := rfl

theorem platter_of_fetch {s : State} {w : Word} (h : s.fetch = some w) : s.platter = w := by simp [platter, h]

theorem platter_of_no_fetch {s : State} (h : s.fetch = none) : s.platter = 0#32 := by simp [platter, h]

end Sys2Proof.Machine.State
end

