-- ==== Sys2Proof/Laws/Ops.lean ====
section
/-! SUPPORT. What ending an instruction, taking a fault, a step and a reset can do, once each. -/

namespace Sys2Proof.Machine

/-! ## Ending an instruction -/

@[simp] theorem conclude_ok (s t : State) : conclude s (.ok t) = .next t := rfl
@[simp] theorem conclude_error (s : State) (c : Cause) : conclude s (.error c) = .next (s.raise c) := rfl

/-- An instruction that ends with `conclude` always has a next state: the one computed, or the fault's. -/
theorem conclude_cases {s t : State} {r : Except Cause State} (h : conclude s r = .next t) :
    r = .ok t ∨ ∃ c, r = .error c ∧ t = s.raise c := by
  cases r with
  | ok u => exact .inl (by simpa using h)
  | error c => exact .inr ⟨c, rfl, by simpa using h.symm⟩

/-- The same, when the computed state is a function of an operation's result. -/
theorem conclude_map_cases {α : Type} {s t : State} {r : Except Cause α} {f : α → State}
    (h : conclude s (r.map f) = .next t) : (∃ x, r = .ok x ∧ t = f x) ∨ ∃ c, r = .error c ∧ t = s.raise c := by
  cases r with
  | ok x => exact .inl ⟨x, rfl, by simpa [Except.map] using h.symm⟩
  | error c => exact .inr ⟨c, rfl, by simpa [Except.map] using h.symm⟩

@[simp] theorem conclude_map_ok {α : Type} (s : State) (x : α) (f : α → State) :
    conclude s ((Except.ok x).map f) = .next (f x) := rfl

@[simp] theorem conclude_map_error {α : Type} (s : State) (c : Cause) (f : α → State) :
    conclude s ((Except.error c : Except Cause α).map f) = .next (s.raise c) := rfl

/-! ## The tests of a register's value -/

@[simp] theorem condHolds_iff {v : Word} : condHolds v = true ↔ v ≠ 0#32 := by simp [condHolds]
@[simp] theorem divisorIsZero_iff {v : Word} : divisorIsZero v = true ↔ v = 0#32 := by simp [divisorIsZero]
@[simp] theorem exceedsByte_iff {v : Word} : exceedsByte v = true ↔ 255 < v.toNat := by simp [exceedsByte]

/-! ## One step -/

/-- Everything a step can do when it answers a next state: it fetched nothing and took FETCH_OOB, or it ran the
decoded instruction. -/
theorem step_cases {s t : State} (h : step s = .next t) :
    s.run = .running ∧
      ((s.fetch = none ∧ t = s.raise .fetchOob) ∨ ∃ w, s.fetch = some w ∧ exec (decode w) s = .next t) := by
  unfold step at h
  split at h
  · cases h
  · cases h
  · refine ⟨‹_›, ?_⟩
    split at h
    · exact .inl ⟨‹_›, by simpa using h.symm⟩
    · exact .inr ⟨_, ‹_›, h⟩

/-! ## STATUS -/

@[simp] theorem State.status_runState (s : State) : s.status.runState = s.run.code := rfl
@[simp] theorem State.status_record (s : State) : s.status.record = s.fault := rfl

/-- STATUS shows a finger beside the record's in Halted and nowhere else. -/
theorem State.haltFinger_iff {s : State} {f : Word} :
    s.status.haltFinger = some f ↔ s.run = .halted ∧ s.finger = f := by
  cases h : s.run <;> simp [State.status, h]

/-! ## Reset -/

/-- The model's one reset state is the spec's reset for the default run, from any state. -/
theorem resetWith_defaultRun (s : State) : s.resetWith Config.defaultRun = State.reset := rfl

/-- Reset memory is in the canonical form. -/
theorem reset_mem_wf : State.reset.mem.wf := by decide

theorem imageWords_length (image : List Byte) : (imageWords image).length = image.length / 4 := by
  fun_induction imageWords image with
  | case1 k0 k1 k2 k3 rest ih => simp only [List.length_cons, ih]; omega
  | case2 image h =>
    match image, h with
    | [], _ | [_], _ | [_, _], _ | [_, _, _], _ => simp
    | k0 :: k1 :: k2 :: k3 :: rest, h => exact absurd rfl (h k0 k1 k2 k3 rest)

end Sys2Proof.Machine
end

