-- ==== Sys2Proof/Laws/Exec.lean ====
section
/-! SUPPORT. Everything an instruction can do, said once: it takes a fault that a step can take, or it ends as its rule says. Claims over all instructions split on this and unfold no meaning. -/

namespace Sys2Proof.Machine

/-- The ways instruction `i` ends in `t` from `s` without a fault. -/
def Ran (i : Instr) (s t : State) : Prop :=
  match i with
  | .cmov a b c =>
    (s.readReg c ≠ 0#32 ∧ t = (s.writeReg a (s.readReg b)).advance) ∨ (s.readReg c = 0#32 ∧ t = s.advance)
  | .index a b c => ∃ v, s.mem.index (s.readReg b) (s.readReg c) = .ok v ∧ t = (s.writeReg a v).advance
  | .amend a b c =>
    ∃ m, s.mem.amend (s.readReg a) (s.readReg b) (s.readReg c) = .ok m ∧ t = (s.setMem m).advance
  | .add a b c => t = (s.writeReg a (addWords (s.readReg b) (s.readReg c))).advance
  | .mul a b c => t = (s.writeReg a (mulWords (s.readReg b) (s.readReg c))).advance
  | .div a b c => s.readReg c ≠ 0#32 ∧ t = (s.writeReg a (divWords (s.readReg b) (s.readReg c))).advance
  | .nand a b c => t = (s.writeReg a (nandWords (s.readReg b) (s.readReg c))).advance
  | .halt => t = (s.setRun .halted).advance
  | .alloc b c =>
    ∃ r, s.mem.allocate s.capacity (s.readReg c) = .ok r ∧ t = ((s.setMem r.1).writeReg b r.2).advance
  | .aband c => ∃ m, s.mem.abandon (s.readReg c) = .ok m ∧ t = (s.setMem m).advance
  | .out c => (s.readReg c).toNat ≤ 255 ∧ t = (s.emit ((s.readReg c).setWidth 8)).advance
  | .inp c =>
    (s.input = [] ∧ t = s) ∨
      ∃ r rest, s.input = r :: rest ∧ t = ((s.setInput rest).writeReg c (answerWord r)).advance
  | .loadp b c =>
    ∃ m, s.mem.duplicateIntoZero s.capacity (s.readReg b) = .ok m ∧ t = (s.setMem m).setFinger (s.readReg c)
  | .ortho a imm => t = (s.writeReg a imm).advance
  | .illegal14 | .illegal15 => False

/-! ## The causes an operation answers -/

theorem Memory.index_cause {m : Memory} {h i : Word} {c : Cause} (e : m.index h i = .error c) :
    c = .inactiveHandle ∨ c = .offsetOob := by
  unfold Memory.index at e
  split at e
  · exact .inl (Except.error.inj e).symm
  · split at e
    · cases e
    · exact .inr (Except.error.inj e).symm

theorem Memory.amend_cause {m : Memory} {h i v : Word} {c : Cause} (e : m.amend h i v = .error c) :
    c = .inactiveHandle ∨ c = .offsetOob := by
  unfold Memory.amend at e
  split at e
  · exact .inl (Except.error.inj e).symm
  · split at e
    · cases e
    · exact .inr (Except.error.inj e).symm

theorem Memory.abandon_cause {m : Memory} {h : Word} {c : Cause} (e : m.abandon h = .error c) :
    c = .abandonZero ∨ c = .abandonInactive := by
  unfold Memory.abandon at e
  split at e
  · exact .inl (Except.error.inj e).symm
  · split at e
    · exact .inr (Except.error.inj e).symm
    · cases e

theorem Memory.duplicate_cause {m : Memory} {k : Option Nat} {h : Word} {c : Cause}
    (e : m.duplicateIntoZero k h = .error c) : c = .loadpInactive ∨ c = .exhausted := by
  unfold Memory.duplicateIntoZero at e
  split at e
  · cases e
  · split at e
    · exact .inl (Except.error.inj e).symm
    · split at e
      · exact .inr (Except.error.inj e).symm
      · cases e

theorem Memory.allocate_cause {m : Memory} {k : Option Nat} {size : Word} {c : Cause}
    (e : m.allocate k size = .error c) : c = .exhausted := by
  unfold Memory.allocate at e
  split at e
  · exact (Except.error.inj e).symm
  · cases e

/-! ## The inversion lemma -/

/-- When an instruction answers a next state, it took a fault (never a LoadError, never FETCH_OOB) or it ran. -/
theorem exec_cases {i : Instr} {s t : State} (h : exec i s = .next t) :
    (∃ c : Cause, c ≠ .loadError ∧ c ≠ .fetchOob ∧ t = s.raise c) ∨ Ran i s t := by
  cases i with
  | cmov a b c =>
    right
    simp only [exec, execCmov] at h
    split at h <;> cases h
    · exact .inl ⟨condHolds_iff.mp ‹_›, rfl⟩
    · rename_i hn
      exact .inr ⟨by simpa [condHolds] using hn, rfl⟩
  | index a b c =>
    rcases conclude_map_cases h with ⟨v, e, rfl⟩ | ⟨k, e, rfl⟩
    · exact .inr ⟨v, e, rfl⟩
    · rcases Memory.index_cause e with rfl | rfl <;> exact .inl ⟨_, by decide, by decide, rfl⟩
  | amend a b c =>
    rcases conclude_map_cases h with ⟨m, e, rfl⟩ | ⟨k, e, rfl⟩
    · exact .inr ⟨m, e, rfl⟩
    · rcases Memory.amend_cause e with rfl | rfl <;> exact .inl ⟨_, by decide, by decide, rfl⟩
  | add a b c => cases h; exact .inr rfl
  | mul a b c => cases h; exact .inr rfl
  | div a b c =>
    simp only [exec, execDiv] at h
    split at h
    · exact .inl ⟨.divideByZero, by decide, by decide, by simpa using h.symm⟩
    · rename_i hn
      exact .inr ⟨by simpa [divisorIsZero] using hn, by simpa using h.symm⟩
  | nand a b c => cases h; exact .inr rfl
  | halt => cases h; exact .inr rfl
  | alloc b c =>
    rcases conclude_map_cases h with ⟨r, e, rfl⟩ | ⟨k, e, rfl⟩
    · exact .inr ⟨r, e, rfl⟩
    · cases Memory.allocate_cause e
      exact .inl ⟨_, by decide, by decide, rfl⟩
  | aband c =>
    rcases conclude_map_cases h with ⟨m, e, rfl⟩ | ⟨k, e, rfl⟩
    · exact .inr ⟨m, e, rfl⟩
    · rcases Memory.abandon_cause e with rfl | rfl <;> exact .inl ⟨_, by decide, by decide, rfl⟩
  | out c =>
    simp only [exec, execOut] at h
    split at h
    · exact .inl ⟨.outputRange, by decide, by decide, by simpa using h.symm⟩
    · rename_i hn
      exact .inr ⟨by simpa [exceedsByte] using hn, by simpa using h.symm⟩
  | inp c =>
    right
    simp only [exec, execInp] at h
    split at h <;> cases h
    · exact .inl ⟨‹_›, rfl⟩
    · exact .inr ⟨_, _, ‹_›, rfl⟩
  | loadp b c =>
    rcases conclude_map_cases h with ⟨m, e, rfl⟩ | ⟨k, e, rfl⟩
    · exact .inr ⟨m, e, rfl⟩
    · rcases Memory.duplicate_cause e with rfl | rfl <;> exact .inl ⟨_, by decide, by decide, rfl⟩
  | ortho a imm => cases h; exact .inr rfl
  | illegal14 => exact .inl ⟨.decodeError, by decide, by decide, by simpa [exec, execIllegal14] using h.symm⟩
  | illegal15 => exact .inl ⟨.decodeError, by decide, by decide, by simpa [exec, execIllegal15] using h.symm⟩

end Sys2Proof.Machine
end

