-- ==== Sys2Proof/Laws/PerInstr.lean ====
section
/-! SUPPORT. Laws stated for each instruction as syntax: the top four bits of an instruction's word are its opcode (30_encoding.md R81, R90). -/

namespace Sys2Proof.Laws.EncodeOpcode

/-- The word of `i` carries the opcode of `i` in bits 31:28, when the operands fit. -/
def Statement (i : Instr) : Prop := i.wf = true → (opField (encode i)).toNat = i.opcode

theorem opField_encStd {op : Nat} (h : op < 16) (a b c : Reg) : (opField (encStd op a b c)).toNat = op := by
  have ha := a.isLt
  have hb := b.isLt
  have hc := c.isLt
  rw [opField_toNat, encStd_toNat h]
  omega

theorem cmov (a b c : Reg) : Statement (.cmov a b c) := fun _ => opField_encStd (op := 0) (by decide) a b c
theorem index (a b c : Reg) : Statement (.index a b c) := fun _ => opField_encStd (op := 1) (by decide) a b c
theorem amend (a b c : Reg) : Statement (.amend a b c) := fun _ => opField_encStd (op := 2) (by decide) a b c
theorem add (a b c : Reg) : Statement (.add a b c) := fun _ => opField_encStd (op := 3) (by decide) a b c
theorem mul (a b c : Reg) : Statement (.mul a b c) := fun _ => opField_encStd (op := 4) (by decide) a b c
theorem div (a b c : Reg) : Statement (.div a b c) := fun _ => opField_encStd (op := 5) (by decide) a b c
theorem nand (a b c : Reg) : Statement (.nand a b c) := fun _ => opField_encStd (op := 6) (by decide) a b c
theorem halt : Statement .halt := fun _ => opField_encStd (op := 7) (by decide) 0 0 0
theorem alloc (b c : Reg) : Statement (.alloc b c) := fun _ => opField_encStd (op := 8) (by decide) 0 b c
theorem aband (c : Reg) : Statement (.aband c) := fun _ => opField_encStd (op := 9) (by decide) 0 0 c
theorem out (c : Reg) : Statement (.out c) := fun _ => opField_encStd (op := 10) (by decide) 0 0 c
theorem inp (c : Reg) : Statement (.inp c) := fun _ => opField_encStd (op := 11) (by decide) 0 0 c
theorem loadp (b c : Reg) : Statement (.loadp b c) := fun _ => opField_encStd (op := 12) (by decide) 0 b c
theorem ortho (a : Reg) (imm : Word) : Statement (.ortho a imm) := by
  intro h
  have ha := a.isLt
  have hi : imm.toNat < 2 ^ 25 := by simpa [Instr.wf] using h
  show (opField (encImm a imm)).toNat = 13
  rw [opField_toNat, encImm_toNat hi]
  omega
theorem illegal14 : Statement .illegal14 := fun _ => opField_encStd (op := 14) (by decide) 0 0 0
theorem illegal15 : Statement .illegal15 := fun _ => opField_encStd (op := 15) (by decide) 0 0 0

end Sys2Proof.Laws.EncodeOpcode
end

