-- ==== Sys2Proof/Tests/Slice0.lean ====
section
/-! SUPPORT. Tests whose expected results come from the spec (95_test_vectors.md and the rules' corner cases), the smoke test of WellFormed, and a witness for the hypotheses of each statement. -/

namespace Sys2Proof.Tests

open Sys2Proof.Machine

/-! ## Small states -/

/-- The table of 95_test_vectors.md D-MEM: T[0] one word, T[1] = [7, 8, 9], T[2] inactive. -/
def table : Memory where
  array0 := Arr.ofWords [0x70000000#32]
  slots := [some (Arr.ofWords [7#32, 8#32, 9#32]), none]

/-- A running state with r1, r2, r3 as given, the other registers 0, and `table`. -/
def st (x1 x2 x3 : Word) : State :=
  { State.reset with regs := (((Vector.replicate 8 0#32).set 1 x1).set 2 x2).set 3 x3, mem := table }

/-- `st` with the program `ws` as T[0] and the finger at `f`. -/
def prog (ws : List Word) (f x1 x2 x3 : Word) : State :=
  { st x1 x2 x3 with mem := { table with array0 := Arr.ofWords ws }, finger := f }

/-- `st` with CAPACITY `k`. -/
def capped (k : Nat) (x1 x2 x3 : Word) : State := { st x1 x2 x3 with capacity := some k }

/-- `st` with the host's answers to come. -/
def fed (as : List Answer) : State := { st 0 0 0 with input := as }

/-- The outcome is a next state that satisfies `p`. -/
def after (o : Result) (p : State → Bool) : Bool :=
  match o with
  | .next t => p t
  | .fault _ | .refused _ => false

theorem after_next {o : Result} {p : State → Bool} (h : after o p = true) : ∃ t, o = .next t ∧ p t = true := by
  cases o with
  | next t => exact ⟨t, rfl, h⟩
  | fault r => cases h
  | refused r => cases h

/-- The fault of this kind and sub-cause was taken. -/
def faulted (kind sub : BitVec 3) (t : State) : Bool :=
  decide (t.run = .faulted ∧ t.fault.kind = kind ∧ t.fault.sub = sub)

/-! ## Well-formedness: an operand that does not fit is refused, and the largest that fits is not -/

theorem test_wf_refuses_wide_immediate : (Instr.ortho 0 0x02000000#32).wf = false := by decide
theorem test_wf_accepts_largest_immediate : (Instr.ortho 0 0x01FFFFFF#32).wf = true := by decide

/-! ## Decoding, from words written out field by field after 30_encoding.md R83 and R85 -/

theorem test_decode_cmov : decode (0b0000#4 ++ 0#19 ++ 0b001#3 ++ 0b010#3 ++ 0b011#3) = .cmov 1 2 3 := by decide
theorem test_decode_index : decode (0b0001#4 ++ 0#19 ++ 0b001#3 ++ 0b010#3 ++ 0b011#3) = .index 1 2 3 := by decide
theorem test_decode_amend : decode (0b0010#4 ++ 0#19 ++ 0b110#3 ++ 0b000#3 ++ 0b010#3) = .amend 6 0 2 := by decide
theorem test_decode_add : decode (0b0011#4 ++ 0#19 ++ 0b100#3 ++ 0b001#3 ++ 0b010#3) = .add 4 1 2 := by decide
theorem test_decode_mul : decode (0b0100#4 ++ 0#19 ++ 0b010#3 ++ 0b010#3 ++ 0b011#3) = .mul 2 2 3 := by decide
theorem test_decode_div : decode (0b0101#4 ++ 0#19 ++ 0b110#3 ++ 0b110#3 ++ 0b111#3) = .div 6 6 7 := by decide
theorem test_decode_nand : decode (0b0110#4 ++ 0#19 ++ 0b011#3 ++ 0b000#3 ++ 0b000#3) = .nand 3 0 0 := by decide
theorem test_decode_halt : decode (0b0111#4 ++ 0#28) = .halt := by decide
theorem test_decode_alloc : decode (0b1000#4 ++ 0#19 ++ 0b000#3 ++ 0b010#3 ++ 0b011#3) = .alloc 2 3 := by decide
theorem test_decode_aband : decode (0b1001#4 ++ 0#19 ++ 0b000#3 ++ 0b000#3 ++ 0b010#3) = .aband 2 := by decide
theorem test_decode_out : decode (0b1010#4 ++ 0#19 ++ 0b111#3 ++ 0b000#3 ++ 0b111#3) = .out 7 := by decide
theorem test_decode_inp : decode (0b1011#4 ++ 0#19 ++ 0b000#3 ++ 0b000#3 ++ 0b101#3) = .inp 5 := by decide
theorem test_decode_loadp : decode (0b1100#4 ++ 0#19 ++ 0b000#3 ++ 0b001#3 ++ 0b011#3) = .loadp 1 3 := by decide
theorem test_decode_ortho : decode (0b1101#4 ++ 0b001#3 ++ 1234#25) = .ortho 1 1234#32 := by decide
theorem test_decode_illegal14 : decode (0b1110#4 ++ 0xFFFFFFF#28) = .illegal14 := by decide
theorem test_decode_illegal15 : decode (0b1111#4 ++ 0#28) = .illegal15 := by decide
theorem test_decode_ignores_unused_bits : decode 0x3FFFFE53#32 = .add 1 2 3 := by decide
/-- The outputs of the decoder sub-block on the words of 30_encoding.md R90. -/
theorem test_decoder_outputs :
    (decoder 0x30000053#32).op = 3#4 ∧ (decoder 0x30000053#32).a = 1#3 ∧ (decoder 0x30000053#32).b = 2#3 ∧
      (decoder 0x30000053#32).c = 3#3 ∧ (decoder 0xD0000061#32).ia = 0#3 ∧ (decoder 0xD0000061#32).imm = 97#32 := by decide
theorem test_decodeTableWord : decodeTableWord 32 0xD3FFFFFF = some (.ortho 1 0x01FFFFFF#32) := by decide
theorem test_encode_words :
    encode (.add 1 2 3) = 0x30000053#32 ∧ encode (.ortho 0 97#32) = 0xD0000061#32 ∧ encode .halt = 0x70000000#32 ∧
      encode (.alloc 2 3) = 0x80000013#32 := by decide

/-! ## Instructions, from 95_test_vectors.md -/

theorem test_cmov_copies : after (exec (.cmov 1 2 3) (st 5 9 0xFFFFFFFF)) (·.readReg 1 = 9#32) = true := by decide
theorem test_cmov_dest_is_condition : after (exec (.cmov 3 2 3) (st 0 0 4)) (·.readReg 3 = 0#32) = true := by decide
theorem test_ortho_zero : after (exec (.ortho 7 0#32) (st 0 0 0)) (fun t => t.readReg 7 = 0#32 ∧ t.finger = 1#32) = true := by
  decide
theorem test_index_reads : after (exec (.index 1 2 3) (st 0 1 2)) (·.readReg 1 = 9#32) = true := by decide
theorem test_index_checks_handle_first : after (exec (.index 1 2 3) (st 0 2 99)) (faulted 3 1) = true := by decide
theorem test_amend_stores :
    after (exec (.amend 1 2 3) (st 1 0 0x12345678)) (fun t => t.mem.lookup 1 = some (Arr.ofWords [0x12345678#32, 8#32, 9#32])) = true := by
  decide
theorem test_amend_oob : after (exec (.amend 1 2 3) (st 1 3 5)) (faulted 3 2) = true := by decide
theorem test_add_wraps : after (exec (.add 1 1 1) (st 0x80000001 0 0)) (·.readReg 1 = 2#32) = true := by decide
theorem test_mul_wraps : after (exec (.mul 1 2 3) (st 0 0xFFFFFFFF 0xFFFFFFFF)) (·.readReg 1 = 1#32) = true := by decide
theorem test_div_is_unsigned : after (exec (.div 1 2 3) (st 0 0xFFFFFFFE 2)) (·.readReg 1 = 0x7FFFFFFF#32) = true := by decide
theorem test_div_by_zero : after (exec (.div 1 2 3) (st 0 0 0)) (faulted 4 0) = true := by decide
theorem test_nand_corrected_example : after (exec (.nand 1 2 3) (st 0 1 7)) (·.readReg 1 = 0xFFFFFFFE#32) = true := by decide
theorem test_halt_advances :
    after (exec .halt { st 0 0 0 with finger := 5 }) (fun t => t.run = .halted ∧ t.finger = 6#32) = true := by decide
/-- What R105 and D12 imply: the finger after HALT is seen on STATUS. -/
theorem test_status_after_halt :
    after (exec .halt { st 0 0 0 with finger := 5 }) (fun t => t.status.runState = 1#2 ∧ t.status.haltFinger = some 6#32) = true := by
  decide
theorem test_loadp_copies :
    after (exec (.loadp 1 3) (st 1 0 2)) (fun t => t.mem.array0 = Arr.ofWords [7#32, 8#32, 9#32] ∧ t.finger = 2#32) = true := by
  decide
theorem test_loadp_inactive : after (exec (.loadp 1 3) (st 2 0 0)) (faulted 3 4) = true := by decide
theorem test_alloc_reuses_lowest_slot :
    after (exec (.alloc 3 3) (st 0 0 2)) (fun t => t.readReg 3 = 2#32 ∧ t.mem.lookup 2 = some (Arr.zeros 2)) = true := by decide
theorem test_alloc_exhausted : after (exec (.alloc 2 3) (capped 6 0 0 3)) (faulted 5 3) = true := by decide
theorem test_aband_frees : after (exec (.aband 2) (st 0 1 0)) (fun t => t.mem.lookup 1 = none) = true := by decide
theorem test_aband_never_allocated : after (exec (.aband 2) (st 0 1000 0)) (faulted 5 2) = true := by decide
theorem test_out_255 : after (exec (.out 1) (st 255 0 0)) (·.output = [255#8]) = true := by decide
theorem test_out_256 : after (exec (.out 1) (st 256 0 0)) (faulted 6 0) = true := by decide
theorem test_in_byte : after (exec (.inp 5) (fed [.byte 0x41])) (fun t => t.readReg 5 = 65#32 ∧ t.input = []) = true := by decide
theorem test_in_eof : after (exec (.inp 5) (fed [.eof])) (·.readReg 5 = 0xFFFFFFFF#32) = true := by decide
theorem test_illegal_records_platter :
    after (step (prog [0xE0000000#32] 0 0 0 0)) (fun t => faulted 2 0 t ∧ t.fault.fplatter = 0xE0000000#32) = true := by decide

/-! ## The cycle, reset and load -/

theorem test_fetch_out_of_bounds :
    after (step (prog [0#32] 1 0 0 0)) (fun t => faulted 3 3 t ∧ t.fault.ffinger = 1#32 ∧ t.fault.fplatter = 0#32) = true := by decide

/-- The run inputs of 95_test_vectors.md for an image. -/
def imaged (image : List Byte) : RunInputs := { Config.defaultRun with image := image }

/-- Program P1's image. -/
def imageP1 : RunInputs :=
  imaged [0xD0#8, 0x00#8, 0x00#8, 0x61#8, 0xA0#8, 0x00#8, 0x00#8, 0x00#8, 0x70#8, 0x00#8, 0x00#8, 0x00#8]

theorem test_load_is_big_endian :
    (State.reset.resetWith imageP1).mem.array0 = Arr.ofWords [0xD0000061#32, 0xA0000000#32, 0x70000000#32] := by decide
theorem test_load_error_six_bytes :
    (State.reset.resetWith (imaged [0#8, 0#8, 0#8, 0#8, 0#8, 0#8])).fault.kind = 1#3 := by decide
theorem test_empty_image_faults_at_first_fetch : after (step State.reset) (faulted 3 3) = true := by decide
theorem test_placed_word_runs_after_reset :
    after (step (State.reset.withFetchWord 32 0xD0000061)) (fun t => t.readReg 0 = 97#32 ∧ t.finger = 1#32) = true := by decide

/-! ## Witnesses: states and operands that meet the hypotheses of each statement, clause by clause -/

theorem test_witness_DecodeOfEncodeIsIdentity : (Instr.ortho 7 0x01FFFFFF#32).wf = true := by decide
theorem test_witness_EncodingFunctionsDecodeToTheirFields : 12 ≤ 12 ∧ (0x01FFFFFF#32).toNat < 2 ^ 25 := by decide
theorem test_witness_UnusedBitsAreIgnoredAndWrittenZero :
    (0x30000053#32 : Word).toNat / 2 ^ 28 = (0x3FFFFE53#32 : Word).toNat / 2 ^ 28 ∧
      (0x30000053#32 : Word).toNat % 2 ^ Claims.usedBits 3 = (0x3FFFFE53#32 : Word).toNat % 2 ^ Claims.usedBits 3 ∧
      Instr.halt.wf = true := by decide
theorem test_witness_OrthographyUsesEveryBit : (0xDFFFFFFF#32 : Word).toNat / 2 ^ 28 = 13 := by decide
theorem test_witness_CmovCopiesIffConditionIsNonzero : (st 0 0 1).readReg 3 ≠ 0#32 ∧ (st 0 0 0).readReg 3 = 0#32 := by decide
theorem test_witness_OrthoWritesItsImmediate : (0x01FFFFFF#32 : Word).toNat < 2 ^ 25 := by decide
theorem test_witness_IndexReadsTheWordOrFaults :
    (st 0 1 2).mem.wordAt ((st 0 1 2).readReg 2).toNat ((st 0 1 2).readReg 3).toNat = some 9#32 ∧
      (st 0 2 0).mem.lenOf ((st 0 2 0).readReg 2).toNat = none ∧
      (st 0 1 3).mem.lenOf ((st 0 1 3).readReg 2).toNat = some 3 ∧ 3 ≤ ((st 0 1 3).readReg 3).toNat := by decide
theorem test_witness_AmendStoresTheWordOrFaults :
    (st 1 2 5).mem.wf ∧ (st 1 2 5).mem.lenOf ((st 1 2 5).readReg 1).toNat = some 3 ∧ ((st 1 2 5).readReg 2).toNat < 3 ∧
      (st 2 0 5).mem.lenOf ((st 2 0 5).readReg 1).toNat = none ∧
      (st 1 3 5).mem.lenOf ((st 1 3 5).readReg 1).toNat = some 3 ∧ 3 ≤ ((st 1 3 5).readReg 2).toNat := by decide
theorem test_witness_AmendThenIndexReturnsTheValue :
    (st 1 2 5).mem.wf ∧ (st 1 2 5).mem.lenOf ((st 1 2 5).readReg 1).toNat = some 3 ∧ ((st 1 2 5).readReg 2).toNat < 3 ∧
      (st 2 0 5).mem.lenOf ((st 2 0 5).readReg 1).toNat = none ∧
      (st 1 3 5).mem.lenOf ((st 1 3 5).readReg 1).toNat = some 3 ∧ 3 ≤ ((st 1 3 5).readReg 2).toNat := by decide
theorem test_witness_DivWritesTheQuotientOrFaults : (st 0 9 1).readReg 3 ≠ 0#32 ∧ (st 0 9 0).readReg 3 = 0#32 := by decide
theorem test_witness_SubtractionIsComposed : (4 : Reg) ≠ 2 ∧ (5 : Reg) ≠ 2 ∧ (5 : Reg) ≠ 4 := by decide
theorem test_witness_HaltEndsTheRun : (0x7FFFFFFF#32 : Word).toNat / 2 ^ 28 = 7 := by decide
theorem test_witness_LoadpCopiesAndJumpsOrFaults :
    (st 0 0 7).readReg 1 = 0#32 ∧
      ((capped 6 1 0 0).readReg 1 ≠ 0#32 ∧ (capped 6 1 0 0).mem.lenOf ((capped 6 1 0 0).readReg 1).toNat = some 3 ∧
        (capped 6 1 0 0).mem.lenOf 0 = some 1 ∧ (capped 6 1 0 0).mem.used - 1 + 3 ≤ 6) ∧
      ((st 2 0 0).readReg 1 ≠ 0#32 ∧ (st 2 0 0).mem.lenOf ((st 2 0 0).readReg 1).toNat = none) ∧
      ((capped 5 1 0 0).readReg 1 ≠ 0#32 ∧ (capped 5 1 0 0).mem.lenOf ((capped 5 1 0 0).readReg 1).toNat = some 3 ∧
        (capped 5 1 0 0).mem.lenOf 0 = some 1 ∧ 5 < (capped 5 1 0 0).mem.used - 1 + 3) := by decide
theorem test_witness_NextFetchAfterLoadpReadsTheCopy :
    ∃ t, exec (.loadp 1 3) (st 1 0 2) = .next t ∧ decide (t.run = .running) = true := after_next (by decide)
theorem test_witness_ConditionalBranchIsComposed :
    (7#32 : Word).toNat < 2 ^ 25 ∧ (9#32 : Word).toNat < 2 ^ 25 ∧ (4 : Reg) ≠ 5 ∧ (1 : Reg) ≠ 4 ∧ (1 : Reg) ≠ 5 ∧ (0 : Reg) ≠ 4 ∧
      (0 : Reg) ≠ 5 ∧ (st 1 0 0).readReg 0 = 0#32 ∧ (st 1 0 0).readReg 1 ≠ 0#32 ∧ (st 0 0 0).readReg 1 = 0#32 := by decide
theorem test_witness_AllocTakesTheLowestFreeHandleOrFaults :
    ((capped 7 0 0 3).mem.used + ((capped 7 0 0 3).readReg 3).toNat ≤ 7 ∧ (capped 7 0 0 3).mem.lenOf 2 = none) ∧
      6 < (capped 6 0 0 3).mem.used + ((capped 6 0 0 3).readReg 3).toNat := by decide
theorem test_witness_AbandFreesTheHandleOrFaults :
    ((st 0 0 1).readReg 3 ≠ 0#32 ∧ (st 0 0 1).mem.lenOf ((st 0 0 1).readReg 3).toNat = some 3) ∧ (st 0 0 0).readReg 3 = 0#32 ∧
      ((st 0 0 2).readReg 3 ≠ 0#32 ∧ (st 0 0 2).mem.lenOf ((st 0 0 2).readReg 3).toNat = none) := by decide

theorem every_handle_active (n : Nat) : ∃ m : Memory, ∀ g : Nat, 0 < g → g < n → m.lenOf g ≠ none := by
  refine ⟨{ array0 := Arr.zeros 0, slots := List.replicate n (some (Arr.zeros 0)) }, fun g h0 h1 => ?_⟩
  obtain ⟨k, rfl⟩ := Nat.exists_eq_succ_of_ne_zero h0.ne'
  have hk : k < n := by omega
  simp [Memory.lenOf, Memory.lookup_succ, hk]

/-- The last clause of AllocTakesTheLowestFreeHandleOrFaults: a table in which every handle to 2^32 - 1 is active. -/
theorem test_witness_AllocTakesTheLowestFreeHandleOrFaults_full :
    ∃ s : State, ∀ g : Nat, 0 < g → g < 2 ^ 32 → s.mem.lenOf g ≠ none :=
  (every_handle_active (2 ^ 32)).elim fun m h => ⟨State.reset.setMem m, h⟩

theorem test_witness_FreedHandleIsReused :
    after (exec (.alloc 2 3) (st 0 0 2)) (fun t => after (exec (.aband 2) t) fun u =>
      after (exec (.alloc 4 0) u) fun v => v.run = .running ∧ v.readReg 4 = t.readReg 2) = true := by decide
theorem test_witness_StaleHandleFaults :
    (∃ t, exec (.aband 2) (st 0 1 0) = .next t ∧ decide (t.run = .running) = true) ∧
      (∃ t, step (prog [0x30000053#32] 0 0 2 3) = .next t ∧
        decide ((prog [0x30000053#32] 0 0 2 3).mem.lenOf 2 = none ∧ t.mem.lenOf 2 = none) = true) ∧
      (∃ t, step (prog [0x80000013#32] 0 0 0 4) = .next t ∧
        decide ((prog [0x80000013#32] 0 0 0 4).mem.lenOf 2 = none ∧ t.mem.lenOf 2 = some 4 ∧ t.readReg 2 = 2#32) = true) ∧
      (st 0 2 0).mem.lenOf ((st 0 2 0).readReg 2).toNat = none ∧
      (st 0 0xFFFFFFFF 0).mem.lenOf ((st 0 0xFFFFFFFF 0).readReg 2).toNat = none :=
  ⟨after_next (by decide), after_next (by decide), after_next (by decide), by decide, by decide⟩
theorem test_witness_OutSendsOneByteOrFaults :
    ((st 255 0 0).readReg 1).toNat ≤ 255 ∧ 255 < ((st 256 0 0).readReg 1).toNat := by decide
theorem test_witness_InTakesTheNextAnswer :
    (fed [.byte 255]).input = .byte 255 :: [] ∧ (fed [.eof, .byte 0]).input = .eof :: [.byte 0] := by decide
theorem test_witness_InWaitsUntilTheHostAnswers :
    (prog [0xB0000005#32] 0 0 0 0).run = .running ∧ (prog [0xB0000005#32] 0 0 0 0).fetch = some 0xB0000005#32 ∧
      decode 0xB0000005#32 = .inp 5 ∧ (prog [0xB0000005#32] 0 0 0 0).input = [] := by decide
/-- An OUT step that sends its byte, and an IN step that takes the first of two answers. -/
theorem test_witness_OutputGrowsAndInputShrinksInOrder :
    (∃ t, step (prog [0xA0000001#32] 0 65 0 0) = .next t ∧
      decide ((prog [0xA0000001#32] 0 65 0 0).fetch = some 0xA0000001#32 ∧ decode 0xA0000001#32 = .out 1 ∧
        t.output = (prog [0xA0000001#32] 0 65 0 0).output ++ [65#8]) = true) ∧
      ∃ t, step { prog [0xB0000005#32] 0 0 0 0 with input := [.byte 7, .eof] } = .next t ∧
        decide (decode 0xB0000005#32 = .inp 5 ∧ t.input = [.eof] ∧ t.readReg 5 = 7#32) = true :=
  ⟨after_next (by decide), after_next (by decide)⟩

/-- For the statements about any step that is not waiting, ends without a fault, and fetched a platter. -/
theorem test_witness_a_step_that_completes :
    ∃ t, step (prog [0x30000053#32] 0 0 2 3) = .next t ∧
      decide ((prog [0x30000053#32] 0 0 2 3).fetch = some 0x30000053#32 ∧ t.run ≠ .faulted ∧
        (prog [0x30000053#32] 0 0 2 3).waiting = false) = true := after_next (by decide)
theorem test_witness_FingerAdvancesUnlessLoadp_loadp :
    ∃ t, step (prog [0xC000000B#32] 0 0 0 9) = .next t ∧
      decide ((prog [0xC000000B#32] 0 0 0 9).fetch = some 0xC000000B#32 ∧ decode 0xC000000B#32 = .loadp 1 3 ∧
        t.run ≠ .faulted ∧ (prog [0xC000000B#32] 0 0 0 9).waiting = false) = true := after_next (by decide)
theorem test_witness_StepRunsTheDecodedPlatter :
    (prog [0x70000000#32] 0 0 0 0).run = .running ∧ (prog [0x70000000#32] 0 0 0 0).mem.wordAt 0 0 = some 0x70000000#32 := by decide
theorem test_witness_FetchOutOfBoundsFaults :
    (prog [0#32] 1 0 0 0).run = .running ∧ (prog [0#32] 1 0 0 0).mem.lenOf 0 = some 1 ∧ 1 ≤ (prog [0#32] 1 0 0 0).finger.toNat := by
  decide
theorem test_witness_UndefinedOpcodeIsDecodeError :
    (prog [0xFFFFFFFF#32] 0 0 0 0).run = .running ∧ (prog [0xFFFFFFFF#32] 0 0 0 0).mem.wordAt 0 0 = some 0xFFFFFFFF#32 ∧
      14 ≤ (0xFFFFFFFF#32 : Word).toNat / 2 ^ 28 := by decide
theorem test_witness_TerminalRunStatesTakeNoStep :
    (State.reset.setRun .halted).run ≠ .running ∧ (State.reset.setRun .faulted).run ≠ .running := by decide
theorem test_witness_FaultingStepIsPrecise :
    ∃ t, step (prog [0x500000D0#32] 0 0 9 0) = .next t ∧ decide (t.run = .faulted) = true := after_next (by decide)
theorem test_witness_OnlyHaltReachesHalted :
    ∃ t, step (prog [0x7FFFFFFF#32] 0 0 0 0) = .next t ∧ decide (t.run = .halted) = true := after_next (by decide)
theorem test_witness_OnlyTheNamedRegisterIsWritten :
    (∃ t, exec (.add 1 2 3) (st 0 2 3) = .next t ∧ decide (t.run = .running) = true) ∧
      Claims.writtenReg (st 0 2 3) (.add 1 2 3) ≠ some 2 := ⟨after_next (by decide), by decide⟩
theorem test_witness_UnreadRegistersDoNotMatter :
    (∃ t, exec (.add 1 2 3) (st 0 2 3) = .next t ∧ decide (t.run = .running) = true) ∧
      (∀ r ∈ Claims.readRegs (.add 1 2 3), (st 7 2 3).readReg r = (st 0 2 3).readReg r) ∧ (st 7 2 3).mem = (st 0 2 3).mem ∧
      (st 7 2 3).regs ≠ (st 0 2 3).regs := ⟨after_next (by decide), by decide, by decide, by decide⟩
theorem test_witness_AmendOfTheProgramIsFetched :
    (prog [0#32, 0#32] 0 0 1 5).mem.wf ∧
      ∃ t, exec (.amend 1 2 3) (prog [0#32, 0#32] 0 0 1 5) = .next t ∧
        decide (t.run = .running ∧ (prog [0#32, 0#32] 0 0 1 5).readReg 1 = 0#32 ∧
          (prog [0#32, 0#32] 0 0 1 5).readReg 2 = t.finger) = true := ⟨by decide, after_next (by decide)⟩
theorem test_witness_ArrayLengthsStayFixed :
    ∃ t, step (prog [0xC000000B#32] 0 1 0 0) = .next t ∧
      decide ((prog [0xC000000B#32] 0 1 0 0).mem.lenOf 0 = some 1 ∧ t.mem.lenOf 0 = some 3 ∧
        (prog [0xC000000B#32] 0 1 0 0).mem.lenOf 1 = some 3 ∧ t.mem.lenOf 1 = some 3) = true := after_next (by decide)
/-- For EveryStepKeepsTheInvariant and StatusTellsHowTheStepEnded: a step that goes on, one that halts, one that faults. -/
theorem test_witness_EveryStepKeepsTheInvariant :
    ((prog [0x30000053#32] 0 0 2 3).Inv ∧ ∃ t, step (prog [0x30000053#32] 0 0 2 3) = .next t ∧ decide (t.run = .running) = true) ∧
      ((prog [0x70000000#32] 0 0 0 0).Inv ∧ ∃ t, step (prog [0x70000000#32] 0 0 0 0) = .next t ∧ decide (t.run = .halted) = true) ∧
      ((prog [0x500000D0#32] 0 0 9 0).Inv ∧ ∃ t, step (prog [0x500000D0#32] 0 0 9 0) = .next t ∧ decide (t.run = .faulted) = true) :=
  ⟨⟨⟨by decide, by decide, rfl⟩, after_next (by decide)⟩, ⟨⟨by decide, by decide, rfl⟩, after_next (by decide)⟩,
    ⟨⟨by decide, by decide, rfl⟩, after_next (by decide)⟩⟩
theorem test_witness_HandleZeroIsNeverFreedNorGivenOut :
    (∃ t, exec (.alloc 2 3) (st 0 0 2) = .next t ∧ decide (t.run = .running) = true) ∧ (st 0 0 0).readReg 3 = 0#32 :=
  ⟨after_next (by decide), by decide⟩
theorem test_witness_LastOffsetIsOutOfBounds :
    (prog [0#32] 0xFFFFFFFF 0 0 0).Inv ∧ (prog [0#32] 0xFFFFFFFF 0 0 0).finger.toNat = 2 ^ 32 - 1 ∧
      ∃ t, step (prog [0#32] 0xFFFFFFFF 0 0 0) = .next t ∧ decide (t.run = .faulted) = true :=
  ⟨⟨by decide, by decide, rfl⟩, by decide, after_next (by decide)⟩
theorem test_witness_EqualWordsMakeEqualArrays : table.wf ∧ table.slots.length = table.slots.length := by decide
/-- For ImageBecomesArrayZeroBigEndian, ResetSetsTheStartState and EveryResetEstablishesTheInvariant. -/
theorem test_witness_ImageBecomesArrayZeroBigEndian :
    imageP1.image.length = 4 * 3 ∧ 3 ≤ 2 ^ 32 - 1 ∧ imageP1.capacity = none ∧ loadRefused imageP1 = false ∧
      loadRefused { imageP1 with capacity := some 3 } = false := by decide
theorem test_witness_BadImageIsALoadError :
    (imaged [0#8]).image.length % 4 ≠ 0 ∧ 2 < ({ imageP1 with capacity := some 2 } : RunInputs).image.length / 4 := by decide
theorem image_of_length (n : Nat) : ∃ p : RunInputs, p.image.length = n :=
  ⟨imaged (List.replicate n 0#8), List.length_replicate⟩

theorem test_witness_BadImageIsALoadError_oversized : ∃ p : RunInputs, 4 * (2 ^ 32 - 1) < p.image.length :=
  (image_of_length (4 * 2 ^ 32)).elim fun p h => ⟨p, by omega⟩

theorem test_witness_EveryReachedStateHasTheInvariant :
    loadRefused imageP1 = false ∧
      ∃ t, Host.Core.run core 1 (State.reset.resetWith imageP1) = .next t ∧ decide (t.finger = 1#32) = true :=
  ⟨by decide, after_next (by decide)⟩
theorem test_witness_PlacedWordIsRunNext : State.reset.mem.wf := by decide

end Sys2Proof.Tests
end

section
/-! The registers an instruction leaves alone (10_state.md R31). -/

namespace Sys2Proof.Machine

open Sys2Proof.Claims

/-- An instruction that ends by writing `a` and advancing leaves every register but `a`. -/
theorem State.readReg_advance_writeReg_of_ne_some (s : State) {a r : Reg} (v : Word) (h : some a ≠ some r) :
    (s.writeReg a v).advance.readReg r = s.readReg r :=
  s.readReg_writeReg_other v fun e => h (congrArg some e.symm)

/-- An instruction that runs without a fault changes no register but the one R31 names. -/
theorem Ran.readReg_of_not_written {i : Instr} {s t : State} {r : Reg} (h : Ran i s t)
    (hr : writtenReg s i ≠ some r) : t.readReg r = s.readReg r := by
  cases i with
  | cmov a b c =>
    rcases h with ⟨hc, rfl⟩ | ⟨-, rfl⟩
    · simp only [writtenReg, if_pos hc] at hr
      exact s.readReg_advance_writeReg_of_ne_some _ hr
    · rfl
  | add a b c | mul a b c | nand a b c | ortho a imm =>
    cases h
    exact s.readReg_advance_writeReg_of_ne_some _ hr
  | index a b c =>
    obtain ⟨v, -, rfl⟩ := h
    exact s.readReg_advance_writeReg_of_ne_some v hr
  | div a b c =>
    obtain ⟨-, rfl⟩ := h
    exact s.readReg_advance_writeReg_of_ne_some _ hr
  | alloc b c =>
    obtain ⟨m, -, rfl⟩ := h
    exact (s.setMem m.1).readReg_advance_writeReg_of_ne_some _ hr
  | inp c =>
    rcases h with ⟨-, rfl⟩ | ⟨a, rest, -, rfl⟩
    · rfl
    · exact (s.setInput rest).readReg_advance_writeReg_of_ne_some _ hr
  | amend a b c | aband c | loadp b c =>
    obtain ⟨m, -, rfl⟩ := h
    rfl
  | halt => cases h; rfl
  | out c => obtain ⟨-, rfl⟩ := h; rfl
  | illegal14 | illegal15 => exact h.elim

end Sys2Proof.Machine

/-- Settles O41: a fault writes no register (60_exceptions.md R200), and an instruction that runs writes only the
register of its row. -/
theorem onlyTheNamedRegisterIsWritten : Obligations.OnlyTheNamedRegisterIsWritten := by
  unfold Obligations.OnlyTheNamedRegisterIsWritten
  intro i s t r h hr
  rcases Sys2Proof.Machine.exec_cases h with ⟨c, -, -, rfl⟩ | hran
  · exact s.raise_readReg c r
  · exact hran.readReg_of_not_written hr

end

section
/-! Handle 0 in the memory manager (20_memory.md R61). -/

namespace Sys2Proof.Machine

/-- Handle 0 names array 0, so it is active in every table. -/
@[simp] theorem Memory.lenOf_zero (m : Memory) : m.lenOf 0 = some m.array0.len :=
  Memory.lenOf_of_lookup m.lookup_zero

/-- The search for a handle begins at slot 1 (20_memory.md R54). -/
theorem Memory.allocate_ne_zero {m : Memory} {c : Option Nat} {size : Word} {r : Memory × Word}
    (e : m.allocate c size = .ok r) : r.2 ≠ 0#32 := by
  obtain ⟨-, -, -, hr⟩ := Memory.allocate_cases e
  intro hz
  simp [hz, Memory.allocateHandle] at hr

/-- A fault writes no array (60_exceptions.md R200). -/
theorem State.raise_sameArrays (s : State) (c : Cause) : sameArrays s (s.raise c) := fun _ => ⟨rfl, fun _ => rfl⟩

/-- ALLOC that does not fault leaves a handle other than 0 in its register. -/
theorem exec_alloc_readReg_ne_zero {s t : State} {b c : Reg} (h : exec (.alloc b c) s = .next t)
    (hrun : t.run = .running) : t.readReg b ≠ 0#32 := by
  rcases exec_cases h with ⟨k, -, -, rfl⟩ | ⟨r, e, rfl⟩
  · simp at hrun
  · simpa using Memory.allocate_ne_zero e

/-- ABAND of handle 0 takes ABANDON_ZERO (20_memory.md R59). -/
theorem exec_aband_zero {s : State} {c : Reg} (hz : s.readReg c = 0#32) :
    exec (.aband c) s = .next (s.raise .abandonZero) := by
  simp [exec, execAband, Memory.abandon_zero, hz]

end Sys2Proof.Machine

/-- Settles O46: the representation keeps handle 0 active, the search for a handle starts above it, and ABAND of it
faults before it writes. -/
theorem handleZeroIsNeverFreedNorGivenOut : Obligations.HandleZeroIsNeverFreedNorGivenOut := by
  unfold Obligations.HandleZeroIsNeverFreedNorGivenOut
  intro s
  refine ⟨⟨_, s.mem.lenOf_zero⟩, fun b c t h hrun => ?_, fun c hz => ?_⟩
  · exact Sys2Proof.Machine.exec_alloc_readReg_ne_zero h hrun
  · exact ⟨_, Sys2Proof.Machine.exec_aband_zero hz, s.raise_run _, s.raise_sameArrays _⟩

end

section
/-! The decoder's answer as the table of 30_encoding.md R89 applied to the fields of R81, R82 and R84. -/

namespace Sys2Proof

open Sys2Proof.Claims

/-- Row by row of R89, the decoder selects from its outputs what the table does. -/
theorem DecoderOut.instr_eq_ofFields (d : DecoderOut) :
    d.instr = ofFields d.op.toNat d.a.toFin d.b.toFin d.c.toFin d.ia.toFin d.imm := by
  unfold DecoderOut.instr
  split <;> simp only [ofFields, *]

theorem regBits_toFin (w : Word) (lo : Nat) : (regBits w lo).toFin = field w lo :=
  Fin.ext (regBits_toFin_val w lo)

theorem immField_eq_ofNat (w : Word) : immField w = BitVec.ofNat 32 (w.toNat % 2 ^ 25) := by
  apply BitVec.eq_of_toNat_eq
  rw [immField_toNat, BitVec.toNat_ofNat]
  omega

/-- R89, with R81 for the opcode and R82 for the register fields. -/
theorem decode_eq_ofFields (w : Word) :
    decode w = ofFields (w.toNat / 2 ^ 28) (field w 6) (field w 3) (field w 0) (field w 25) (immField w) := by
  simp only [decode, DecoderOut.instr_eq_ofFields, decoder_op, decoder_a, decoder_b, decoder_c, decoder_ia, decoder_imm,
    opField_toNat, regBits_toFin]

/-- R84: an opcode-13 word is ORTHO of its two fields. -/
theorem decode_of_opcode_13 {w : Word} (h : w.toNat / 2 ^ 28 = 13) : decode w = .ortho (field w 25) (immField w) := by
  rw [decode_eq_ofFields, h]
  rfl

/-- The opcode, the register field and the immediate of an opcode-13 word leave out none of its bits. -/
theorem encImm_fields {w : Word} (h : w.toNat / 2 ^ 28 = 13) : encImm (field w 25) (immField w) = w := by
  have himm := immField_toNat w
  have hreg : (field w 25).val = w.toNat / 2 ^ 25 % 8 := rfl
  apply BitVec.eq_of_toNat_eq
  rw [encImm_toNat (by omega), hreg, himm]
  omega

end Sys2Proof

/-- Settles O2: the decoder's outputs select the row of R89 for the opcode, and each output is the field's number. -/
theorem decoderReadsTheFieldsOfTheRules : Obligations.DecoderReadsTheFieldsOfTheRules := by
  unfold Obligations.DecoderReadsTheFieldsOfTheRules
  intro w
  rw [Sys2Proof.decode_eq_ofFields, Sys2Proof.immField_eq_ofNat]

/-- Settles O6: the word is ORTHO of its register field and immediate, and `encImm` puts the two back in place. -/
theorem orthographyUsesEveryBit : Obligations.OrthographyUsesEveryBit := by
  unfold Obligations.OrthographyUsesEveryBit
  intro w h
  have hdec := Sys2Proof.decode_of_opcode_13 h
  have himm := Sys2Proof.immField_toNat w
  refine ⟨_, _, hdec, rfl, himm, by omega, ?_⟩
  rw [hdec]
  exact Sys2Proof.encImm_fields h

end

section
/-! Halted and Faulted end a run (40_cycle.md R107). -/

/-- Settles O36: `step_cases` says that a step with a next state starts in Running. -/
theorem terminalRunStatesTakeNoStep : Obligations.TerminalRunStatesTakeNoStep := by
  unfold Obligations.TerminalRunStatesTakeNoStep
  intro s t hrun hstep
  obtain ⟨hrunning, -⟩ := Sys2Proof.Machine.step_cases hstep
  exact hrun hrunning

end

section
/-! What the two encoding functions' words decode to (30_encoding.md R90), and what an instruction leaves that writes one
register, or none, and advances. -/

namespace Sys2Proof

open Sys2Proof.Claims

/-! ## Words of the standard format -/

theorem field_encStd_a {op : Nat} (h : op < 16) (a b c : Reg) : field (encStd op a b c) 6 = a := by
  apply Fin.ext
  simp only [field, Fin.val_ofNat, encStd_toNat h]
  omega

theorem field_encStd_b {op : Nat} (h : op < 16) (a b c : Reg) : field (encStd op a b c) 3 = b := by
  apply Fin.ext
  simp only [field, Fin.val_ofNat, encStd_toNat h]
  omega

theorem field_encStd_c {op : Nat} (h : op < 16) (a b c : Reg) : field (encStd op a b c) 0 = c := by
  apply Fin.ext
  simp only [field, Fin.val_ofNat, encStd_toNat h]
  omega

/-- R89 gives a register and an immediate of the immediate format to opcode 13 only. -/
theorem Claims.ofFields_eq_of_ne_13 {op : Nat} (h : op ≠ 13) (a b c ia ia' : Reg) (imm imm' : Word) :
    ofFields op a b c ia imm = ofFields op a b c ia' imm' := by
  unfold ofFields
  split
  case h_14 => exact absurd rfl h
  all_goals rfl

/-- R90: a word of the standard format decodes to the row of its opcode, with its own fields. -/
theorem decode_encStd {op : Nat} (h : op ≤ 12) (a b c ia : Reg) (imm : Word) :
    decode (encStd op a b c) = ofFields op a b c ia imm := by
  have h16 : op < 16 := by omega
  have hop : (encStd op a b c).toNat / 2 ^ 28 = op := by rw [encStd_toNat h16]; omega
  rw [decode_eq_ofFields, hop, field_encStd_a h16, field_encStd_b h16, field_encStd_c h16]
  exact Claims.ofFields_eq_of_ne_13 (by omega) ..

/-! ## Words of the immediate format -/

theorem field_encImm {v : Word} (h : v.toNat < 2 ^ 25) (a : Reg) : field (encImm a v) 25 = a := by
  apply Fin.ext
  simp only [field, Fin.val_ofNat, encImm_toNat h]
  omega

theorem immField_encImm {v : Word} (h : v.toNat < 2 ^ 25) (a : Reg) : immField (encImm a v) = v := by
  apply BitVec.eq_of_toNat_eq
  rw [immField_toNat, encImm_toNat h]
  omega

/-- R90: a word of the immediate format decodes to ORTHO of its register and value. -/
theorem decode_encImm {v : Word} (h : v.toNat < 2 ^ 25) (a : Reg) : decode (encImm a v) = .ortho a v := by
  have hop : (encImm a v).toNat / 2 ^ 28 = 13 := by rw [encImm_toNat h]; omega
  rw [decode_of_opcode_13 hop, field_encImm h, immField_encImm h]

namespace Machine

/-! ## Frames -/

theorem State.advance_advances (s : State) : advances s s.advance := by
  simp [advances, BitVec.toNat_add]

/-- An instruction that ends by writing `a` and advancing changes nothing else. -/
theorem State.advance_writeReg_writesOnly (s : State) (a : Reg) (v : Word) :
    writesOnly a v s (s.writeReg a v).advance :=
  ⟨s.readReg_writeReg_same a v, fun _ hr => s.readReg_writeReg_other v hr, (s.writeReg a v).advance_advances,
    ⟨rfl, rfl⟩, fun _ => ⟨rfl, fun _ => rfl⟩, rfl, rfl, rfl⟩

/-! ## CMOV and ORTHO -/

theorem exec_cmov_of_ne_zero {s : State} {c : Reg} (hc : s.readReg c ≠ 0#32) (a b : Reg) :
    exec (.cmov a b c) s = .next (s.writeReg a (s.readReg b)).advance :=
  if_pos (condHolds_iff.mpr hc)

theorem exec_cmov_of_eq_zero {s : State} {c : Reg} (hc : s.readReg c = 0#32) (a b : Reg) :
    exec (.cmov a b c) s = .next s.advance :=
  if_neg fun h => condHolds_iff.mp h hc

theorem exec_ortho (s : State) (a : Reg) (v : Word) : exec (.ortho a v) s = .next (s.writeReg a v).advance := rfl

end Machine

end Sys2Proof

/-- Settles O8: with x[C] not 0 the step is a register write and an advance, with x[C] = 0 an advance alone. -/
theorem cmovCopiesIffConditionIsNonzero : Obligations.CmovCopiesIffConditionIsNonzero := by
  unfold Obligations.CmovCopiesIffConditionIsNonzero
  intro s a b c
  refine ⟨Sys2Proof.decode_encStd (by decide) a b c 0 0, ?_⟩
  by_cases hc : s.readReg c = 0#32
  · refine ⟨_, Sys2Proof.Machine.exec_cmov_of_eq_zero hc a b, fun hne => absurd hc hne, fun _ => ?_⟩
    exact ⟨fun _ => rfl, s.advance_advances, ⟨rfl, rfl⟩, fun _ => ⟨rfl, fun _ => rfl⟩, rfl, rfl, rfl⟩
  · refine ⟨_, Sys2Proof.Machine.exec_cmov_of_ne_zero hc a b, fun _ => ?_, fun hz => absurd hz hc⟩
    exact s.advance_writeReg_writesOnly a (s.readReg b)

/-- Settles O9: the word decodes to ORTHO of the value, which is written as it is and so stays below 2^25. -/
theorem orthoWritesItsImmediate : Obligations.OrthoWritesItsImmediate := by
  unfold Obligations.OrthoWritesItsImmediate
  intro s a v hv
  refine ⟨Sys2Proof.decode_encImm hv a, _, Sys2Proof.Machine.exec_ortho s a v, s.advance_writeReg_writesOnly a v, ?_⟩
  rwa [Sys2Proof.Machine.State.advance_readReg, Sys2Proof.Machine.State.readReg_writeReg_same]

end

section
/-! INDEX and AMEND of one address: where no word stands both fail, and after an AMEND the INDEX reads the value
(20_memory.md R57, R58). -/

namespace Sys2Proof.Machine

/-! ## The two memory operations at one address -/

/-- No word stands under an inactive handle, nor at or beyond the length of an array (20_memory.md R50). -/
theorem Memory.wordAt_eq_none {m : Memory} {h i : Nat}
    (e : m.lenOf h = none ∨ ∃ n, m.lenOf h = some n ∧ n ≤ i) : m.wordAt h i = none := by
  rcases e with hnone | ⟨n, hlen, hn⟩
  · exact Memory.wordAt_of_inactive (Memory.lookup_of_lenOf_none hnone) i
  · obtain ⟨a, ha, rfl⟩ := Memory.lookup_of_lenOf hlen
    rw [Memory.wordAt_of_lookup ha, if_neg (not_lt.mpr hn)]

theorem Memory.index_error_of_no_word {m : Memory} {h i : Word} (hw : m.wordAt h.toNat i.toNat = none) :
    ∃ c, m.index h i = .error c := by
  cases e : m.index h i with
  | error c => exact ⟨c, rfl⟩
  | ok v => exact absurd (hw.symm.trans (Memory.index_ok_iff.mp e)) nofun

theorem Memory.amend_error_of_no_word {m : Memory} {h i : Word} (v : Word)
    (hw : m.wordAt h.toNat i.toNat = none) : ∃ c, m.amend h i v = .error c := by
  cases e : m.amend h i v with
  | error c => exact ⟨c, rfl⟩
  | ok n =>
    obtain ⟨a, ha, hi, -⟩ := Memory.amend_cases e
    simp [Memory.wordAt_of_lookup ha, hi] at hw

/-- AMEND keeps the length (20_memory.md R52), so the offset it wrote is still inside for the INDEX. -/
theorem Memory.index_of_amend {m n : Memory} {h i v : Word} (hm : m.wf) (e : m.amend h i v = .ok n) :
    n.index h i = .ok v := by
  obtain ⟨a, ha, hi, rfl⟩ := Memory.amend_cases e
  have hnew : (m.replace h.toNat (a.write i.toNat v)).lookup h.toNat = some (a.write i.toNat v) := by
    rw [Memory.lookup_replace ha, if_pos rfl]
  rw [Memory.index_ok hnew hi, Arr.read_write (Memory.lookup_wf hm ha), if_pos rfl]

/-! ## The two instructions, by the answer of their memory operation -/

theorem exec_index_of_ok {s : State} {b c : Reg} {v : Word} (e : s.mem.index (s.readReg b) (s.readReg c) = .ok v)
    (a : Reg) : exec (.index a b c) s = .next (s.writeReg a v).advance := by
  simp [exec, execIndex, e]

theorem exec_index_of_error {s : State} {b c : Reg} {k : Cause}
    (e : s.mem.index (s.readReg b) (s.readReg c) = .error k) (a : Reg) :
    exec (.index a b c) s = .next (s.raise k) := by
  simp [exec, execIndex, e]

theorem exec_amend_of_ok {s : State} {a b c : Reg} {m : Memory}
    (e : s.mem.amend (s.readReg a) (s.readReg b) (s.readReg c) = .ok m) :
    exec (.amend a b c) s = .next (s.setMem m).advance := by
  simp [exec, execAmend, e]

theorem exec_amend_of_error {s : State} {a b c : Reg} {k : Cause}
    (e : s.mem.amend (s.readReg a) (s.readReg b) (s.readReg c) = .error k) :
    exec (.amend a b c) s = .next (s.raise k) := by
  simp [exec, execAmend, e]

/-- R133 for a valid pair: AMEND leaves the registers alone, so INDEX takes the same handle and offset. -/
theorem exec_amend_then_index {s : State} {a b c : Reg} {m : Memory} (hwf : s.mem.wf)
    (e : s.mem.amend (s.readReg a) (s.readReg b) (s.readReg c) = .ok m) (d : Reg) :
    ∃ t u, exec (.amend a b c) s = .next t ∧ exec (.index d a b) t = .next u ∧ u.readReg d = s.readReg c :=
  have hread : (s.setMem m).advance.mem.index (s.readReg a) (s.readReg b) = .ok (s.readReg c) :=
    Memory.index_of_amend hwf e
  ⟨_, _, exec_amend_of_ok e, exec_index_of_ok hread d, State.readReg_writeReg_same ..⟩

/-- R133 where no word stands: each of the two instructions faults. -/
theorem exec_amend_and_index_fault_of_no_word {s : State} {a b : Reg}
    (hw : s.mem.wordAt (s.readReg a).toNat (s.readReg b).toNat = none) (c d : Reg) :
    (∃ t, exec (.amend a b c) s = .next t ∧ t.run = .faulted) ∧
      (∃ t, exec (.index d a b) s = .next t ∧ t.run = .faulted) := by
  obtain ⟨j, hamend⟩ := Memory.amend_error_of_no_word (s.readReg c) hw
  obtain ⟨k, hindex⟩ := Memory.index_error_of_no_word hw
  exact ⟨⟨_, exec_amend_of_error hamend, s.raise_run j⟩, ⟨_, exec_index_of_error hindex d, s.raise_run k⟩⟩

end Sys2Proof.Machine

/-- Settles O13: a valid pair's AMEND stores the value where the INDEX then reads, and at any other pair no word
stands, so each faults. -/
theorem amendThenIndexReturnsTheValue : Obligations.AmendThenIndexReturnsTheValue := by
  unfold Obligations.AmendThenIndexReturnsTheValue
  intro s a b c d hwf
  refine ⟨fun n hlen hlt => ?_, fun hinvalid => ?_⟩
  · obtain ⟨arr, ha, rfl⟩ := Sys2Proof.Machine.Memory.lookup_of_lenOf hlen
    exact Sys2Proof.Machine.exec_amend_then_index hwf (Sys2Proof.Machine.Memory.amend_ok (s.readReg c) ha hlt) d
  · exact Sys2Proof.Machine.exec_amend_and_index_fault_of_no_word
      (Sys2Proof.Machine.Memory.wordAt_eq_none hinvalid) c d

end

section
/-! ADD, MUL and NAND: what each writes, read as a number or bit by bit (43_alu.md R140, R142, R146). -/

namespace Sys2Proof.Machine

/-! ## The three operations on words -/

@[simp] theorem addWords_toNat (b c : Word) : (addWords b c).toNat = (b.toNat + c.toNat) % 2 ^ 32 :=
  BitVec.toNat_ofNat ..

@[simp] theorem mulWords_toNat (b c : Word) : (mulWords b c).toNat = (b.toNat * c.toNat) % 2 ^ 32 :=
  BitVec.toNat_ofNat ..

theorem nandWords_getLsbD (b c : Word) {k : Nat} (hk : k < 32) :
    (nandWords b c).getLsbD k = !(b.getLsbD k && c.getLsbD k) := by
  simp [nandWords, hk]

/-! ## The three instructions -/

theorem exec_add (s : State) (a b c : Reg) :
    exec (.add a b c) s = .next (s.writeReg a (addWords (s.readReg b) (s.readReg c))).advance := rfl

theorem exec_mul (s : State) (a b c : Reg) :
    exec (.mul a b c) s = .next (s.writeReg a (mulWords (s.readReg b) (s.readReg c))).advance := rfl

theorem exec_nand (s : State) (a b c : Reg) :
    exec (.nand a b c) s = .next (s.writeReg a (nandWords (s.readReg b) (s.readReg c))).advance := rfl

end Sys2Proof.Machine

/-- Settles O14: ADD is a register write and an advance, and the word it writes is the sum of naturals, narrowed. -/
theorem addWritesTheSumModulo : Obligations.AddWritesTheSumModulo := by
  unfold Obligations.AddWritesTheSumModulo
  intro s a b c
  exact ⟨Sys2Proof.decode_encStd (by decide) a b c 0 0, _, _, Sys2Proof.Machine.exec_add s a b c,
    s.advance_writeReg_writesOnly a _, Sys2Proof.Machine.addWords_toNat ..⟩

/-- Settles O15: MUL is a register write and an advance, and the word it writes is the product of naturals, narrowed. -/
theorem mulWritesTheProductModulo : Obligations.MulWritesTheProductModulo := by
  unfold Obligations.MulWritesTheProductModulo
  intro s a b c
  exact ⟨Sys2Proof.decode_encStd (by decide) a b c 0 0, _, _, Sys2Proof.Machine.exec_mul s a b c,
    s.advance_writeReg_writesOnly a _, Sys2Proof.Machine.mulWords_toNat ..⟩

/-- Settles O17: NAND is a register write and an advance, and each of the 32 bits it writes is the complement of the
operands' AND there. -/
theorem nandWritesTheComplementOfTheAnd : Obligations.NandWritesTheComplementOfTheAnd := by
  unfold Obligations.NandWritesTheComplementOfTheAnd
  intro s a b c
  exact ⟨Sys2Proof.decode_encStd (by decide) a b c 0 0, _, _, Sys2Proof.Machine.exec_nand s a b c,
    s.advance_writeReg_writesOnly a _, fun _ hk => Sys2Proof.Machine.nandWords_getLsbD _ _ hk⟩

end

section
/-! What array 0 holds after a LOADP that does not fault (44_control.md R165). -/

namespace Sys2Proof.Machine

/-- Array 0 is then the array the handle named, for handle 0 too (20_memory.md R60). -/
theorem Memory.duplicate_lookup_zero {m n : Memory} {c : Option Nat} {h : Word}
    (e : m.duplicateIntoZero c h = .ok n) : n.lookup 0 = m.lookup h.toNat := by
  rcases Memory.duplicate_cases e with ⟨rfl, rfl⟩ | ⟨-, a, ha, -, rfl⟩
  · rfl
  · rw [ha, Memory.lookup_zero]

/-- LOADP that does not fault copies, then sets the finger to x[C] (44_control.md R161). -/
theorem exec_loadp_of_running {s t : State} {b c : Reg} (h : exec (.loadp b c) s = .next t)
    (hrun : t.run = .running) :
    ∃ m, s.mem.duplicateIntoZero s.capacity (s.readReg b) = .ok m ∧ t = (s.setMem m).setFinger (s.readReg c) := by
  rcases exec_cases h with ⟨k, -, -, rfl⟩ | hran
  · simp at hrun
  · exact hran

end Sys2Proof.Machine

/-- Settles O21: the fetch reads array 0 at the finger, which LOADP set to x[C], and array 0 is now the array x[B]
named. -/
theorem nextFetchAfterLoadpReadsTheCopy : Obligations.NextFetchAfterLoadpReadsTheCopy := by
  unfold Obligations.NextFetchAfterLoadpReadsTheCopy
  intro s t b c h hrun
  obtain ⟨m, hdup, rfl⟩ := Sys2Proof.Machine.exec_loadp_of_running h hrun
  have hcopy := Sys2Proof.Machine.Memory.duplicate_lookup_zero hdup
  exact ⟨rfl, Sys2Proof.Machine.Memory.wordAt_congr hcopy _⟩

end

section
/-! ALLOC, ABAND, ALLOC: the second ALLOC searches a table whose lowest free slot is the one just freed
(45_array_mgmt.md R175). -/

namespace Sys2Proof.Machine

/-! ## Instructions that do not fault -/

/-- An instruction that ends in Running took no fault, so it ran. -/
theorem ran_of_running {i : Instr} {s t : State} (h : exec i s = .next t) (hrun : t.run = .running) : Ran i s t := by
  rcases exec_cases h with ⟨c, -, -, rfl⟩ | hran
  · simp at hrun
  · exact hran

/-- ALLOC that runs puts the handle its table's search finds in x[B]. -/
theorem Ran.alloc_readReg {s t : State} {b c : Reg} (h : Ran (.alloc b c) s t) :
    (t.readReg b).toNat = s.mem.allocateHandle := by
  obtain ⟨r, e, rfl⟩ := h
  obtain ⟨-, -, -, hhandle⟩ := Memory.allocate_cases e
  simpa using hhandle

theorem Ran.alloc_run {s t : State} {b c : Reg} (h : Ran (.alloc b c) s t) : t.run = s.run := by
  obtain ⟨r, -, rfl⟩ := h
  rfl

theorem Ran.aband_run {s t : State} {c : Reg} (h : Ran (.aband c) s t) : t.run = s.run := by
  obtain ⟨m, -, rfl⟩ := h
  rfl

/-! ## The slot the search finds after the handle is freed -/

/-- The slot is free again, and every slot below it is as it was, which the first search found taken. -/
theorem firstFree_set_placeSlot (os : List (Option Arr)) (a : Arr) :
    firstFree ((placeSlot os (firstFree os) a).set (firstFree os) none) = firstFree os := by
  have hle := firstFree_le os
  refine firstFree_unique ?_ fun l hl => ?_
  · have hlt : firstFree os < (placeSlot os (firstFree os) a).length := by
      rw [placeSlot_length hle]
      omega
    rw [List.getElem?_set_self hlt]
    rfl
  · rw [List.getElem?_set_ne (by omega), placeSlot_getElem? hle, if_neg (by omega)]
    exact firstFree_lowest hl

/-- Abandoning the handle just allocated makes it the one the next allocation takes (20_memory.md R54, R59). -/
theorem Memory.allocateHandle_of_allocate_abandon {m n : Memory} {c : Option Nat} {size : Word} {r : Memory × Word}
    (ealloc : m.allocate c size = .ok r) (eaband : r.1.abandon r.2 = .ok n) :
    n.allocateHandle = m.allocateHandle := by
  obtain ⟨-, -, htable, hhandle⟩ := Memory.allocate_cases ealloc
  obtain ⟨k, a, hk, -, rfl⟩ := Memory.abandon_cases eaband
  obtain rfl : k = firstFree m.slots := Nat.succ.inj (hk.symm.trans hhandle)
  simp only [Memory.allocateHandle, htable, firstFree_set_placeSlot]

/-- The same of the two instructions. -/
theorem Ran.allocateHandle_of_alloc_aband {s t u : State} {b c : Reg} (halloc : Ran (.alloc b c) s t)
    (haband : Ran (.aband b) t u) : u.mem.allocateHandle = s.mem.allocateHandle := by
  obtain ⟨r, ealloc, rfl⟩ := halloc
  obtain ⟨m, eaband, rfl⟩ := haband
  exact Memory.allocateHandle_of_allocate_abandon ealloc (by simpa using eaband)

end Sys2Proof.Machine

/-- Settles O26: a run that is Running at the end took no fault, so all three instructions ran, and the two ALLOCs'
searches find the same handle. -/
theorem freedHandleIsReused : Obligations.FreedHandleIsReused := by
  unfold Obligations.FreedHandleIsReused
  intro s t u v b c d e hst htu huv hrun
  have hsecond := Sys2Proof.Machine.ran_of_running huv hrun
  have hrunu : u.run = .running := hsecond.alloc_run.symm.trans hrun
  have haband := Sys2Proof.Machine.ran_of_running htu hrunu
  have hrunt : t.run = .running := haband.aband_run.symm.trans hrunu
  have hfirst := Sys2Proof.Machine.ran_of_running hst hrunt
  apply BitVec.eq_of_toNat_eq
  rw [hsecond.alloc_readReg, hfirst.alloc_readReg]
  exact hfirst.allocateHandle_of_alloc_aband haband

end

section
/-! Reset with an image that fits: array 0 holds the image's big-endian words in file order (70_reset_and_hazards.md
R220, R221). -/

namespace Sys2Proof.Machine

/-- The word at `j` is made of the bytes `4j` to `4j + 3` (70_reset_and_hazards.md R220). -/
theorem imageWords_getElem? : ∀ (image : List Byte) (j : Nat), 4 * j + 3 < image.length →
    (imageWords image)[j]? = some (wordOfBytes (image.getD (4 * j) 0#8) (image.getD (4 * j + 1) 0#8)
      (image.getD (4 * j + 2) 0#8) (image.getD (4 * j + 3) 0#8))
  | _ :: _ :: _ :: _ :: _, 0, _ => rfl
  | _ :: _ :: _ :: _ :: rest, j + 1, h =>
    imageWords_getElem? rest j (by simp only [List.length_cons] at h; omega)
  | [], _, h | [_], _, h | [_, _], _, h | [_, _, _], _, h => by
    simp only [List.length_cons, List.length_nil] at h; omega

/-- The images that load are those with none of R221's errors. -/
theorem loadRefused_eq_false_iff {p : RunInputs} :
    loadRefused p = false ↔ p.image.length % 4 = 0 ∧ p.image.length ≤ 4 * (2 ^ 32 - 1) ∧
      ∀ k, p.capacity = some k → p.image.length / 4 ≤ k := by
  simp only [loadRefused, Bool.or_eq_false_iff, exceeds_eq_false_iff, decide_eq_false_iff_not, not_not, not_lt, and_assoc]

/-- After a reset that loads its image, handle 0 names the array of the image's words (70_reset_and_hazards.md R222). -/
theorem State.resetWith_lookup_zero (s : State) {p : RunInputs} (h : loadRefused p = false) :
    (s.resetWith p).mem.lookup 0 = some (Arr.ofWords (imageWords p.image)) := by
  simp [State.resetWith, h]

/-- The words of an array made from a list are the list's, and no other. -/
theorem Memory.wordAt_of_lookup_ofWords {m : Memory} {h : Nat} {ws : List Word}
    (e : m.lookup h = some (Arr.ofWords ws)) (i : Nat) : m.wordAt h i = ws[i]? := by
  rw [Memory.wordAt_of_lookup e, Arr.ofWords_len, Arr.read_ofWords]
  split
  · next hi => rw [List.getD_eq_getElem _ _ hi, List.getElem?_eq_getElem hi]
  · next hi => rw [List.getElem?_eq_none (not_lt.mp hi)]

end Sys2Proof.Machine

/-- Settles O49: the size hypotheses exclude every load error, so array 0 is the array of the image's words, which
`imageWords_getElem?` and `wordOfBytes_toNat` give as numbers. -/
theorem imageBecomesArrayZeroBigEndian : Obligations.ImageBecomesArrayZeroBigEndian := by
  unfold Obligations.ImageBecomesArrayZeroBigEndian
  intro s p m hlen hmax hcap
  have hwords : p.image.length / 4 = m := by omega
  have hloads : Sys2Proof.Machine.loadRefused p = false :=
    Sys2Proof.Machine.loadRefused_eq_false_iff.mpr ⟨by omega, by omega, by rwa [hwords]⟩
  have hzero := s.resetWith_lookup_zero hloads
  refine ⟨?_, fun j hj => ⟨_, ?_, Sys2Proof.wordOfBytes_toNat _ _ _ _⟩⟩
  · rw [Sys2Proof.Machine.Memory.lenOf_of_lookup hzero, Sys2Proof.Machine.Arr.ofWords_len,
      Sys2Proof.Machine.imageWords_length, hwords]
  · rw [Sys2Proof.Machine.Memory.wordAt_of_lookup_ofWords hzero]
    exact Sys2Proof.Machine.imageWords_getElem? p.image j (by omega)

end

section
/-! Which bits of a word its instruction depends on, and the opcode of an encoded and of a decoded instruction
(30_encoding.md R81 to R90). -/

namespace Sys2Proof

open Sys2Proof.Claims

/-! ## The table of R89 -/

/-- Opcode 7 has a row of its own and uses no field. -/
theorem decode_of_opcode_7 {w : Word} (h : w.toNat / 2 ^ 28 = 7) : decode w = .halt := by
  rw [decode_eq_ofFields, h]
  rfl

/-- Opcode 11 uses field C alone. -/
theorem decode_of_opcode_11 {w : Word} (h : w.toNat / 2 ^ 28 = 11) : decode w = .inp (field w 0) := by
  rw [decode_eq_ofFields, h]
  rfl

theorem Claims.ofFields_opcode {op : Nat} (h : op < 16) (a b c ia : Reg) (imm : Word) :
    (ofFields op a b c ia imm).opcode = op := by
  interval_cases op <;> rfl

theorem Claims.ofFields_wf {imm : Word} (h : imm.toNat < 2 ^ 25) (op : Nat) (a b c ia : Reg) :
    (ofFields op a b c ia imm).wf = true := by
  unfold ofFields
  split
  case h_14 => exact decide_eq_true h
  all_goals rfl

/-- A row depends on a field only when the opcode uses the field's bits. -/
theorem Claims.ofFields_congr {op : Nat} {a a' b b' c c' ia ia' : Reg} {imm imm' : Word}
    (ha : 9 ≤ usedBits op → a = a') (hb : 6 ≤ usedBits op → b = b') (hc : 3 ≤ usedBits op → c = c')
    (hia : 28 ≤ usedBits op → ia = ia') (himm : 28 ≤ usedBits op → imm = imm') :
    ofFields op a b c ia imm = ofFields op a' b' c' ia' imm' := by
  unfold ofFields
  split <;> simp_all [usedBits]

/-! ## The decoded instruction -/

theorem decode_opcode (w : Word) : (decode w).opcode = w.toNat / 2 ^ 28 := by
  have := w.isLt
  rw [decode_eq_ofFields, Claims.ofFields_opcode (by omega)]

theorem decode_wf (w : Word) : (decode w).wf = true := by
  have himm := immField_toNat w
  rw [decode_eq_ofFields, Claims.ofFields_wf (by omega)]

/-- The undefined opcodes are the two above 13 (30_encoding.md R86). -/
theorem Instr.illegal_iff {i : Instr} : i = .illegal14 ∨ i = .illegal15 ↔ 14 ≤ i.opcode := by
  cases i <;> simp [Instr.opcode]

theorem decode_illegal_iff {w : Word} : decode w = .illegal14 ∨ decode w = .illegal15 ↔ 14 ≤ w.toNat / 2 ^ 28 := by
  rw [Instr.illegal_iff, decode_opcode]

/-! ## Words that agree on their low bits -/

theorem field_congr {w v : Word} {lo k : Nat} (h : w.toNat % 2 ^ k = v.toNat % 2 ^ k) (hk : lo + 3 ≤ k) :
    field w lo = field v lo := by
  have low (x : Nat) : x / 2 ^ lo % 8 = x % 2 ^ k / 2 ^ lo % 8 := by
    obtain ⟨d, rfl⟩ := Nat.exists_eq_add_of_le hk
    rw [Nat.add_assoc, Nat.pow_add, Nat.mod_mul_right_div_self, Nat.pow_add]
    exact (Nat.mod_mul_right_mod _ _ _).symm
  apply Fin.ext
  simp only [field, Fin.val_ofNat]
  rw [low w.toNat, low v.toNat, h]

theorem immField_congr {w v : Word} {k : Nat} (h : w.toNat % 2 ^ k = v.toNat % 2 ^ k) (hk : 25 ≤ k) :
    immField w = immField v := by
  have hdvd : 2 ^ 25 ∣ 2 ^ k := Nat.pow_dvd_pow 2 hk
  apply BitVec.eq_of_toNat_eq
  rw [immField_toNat, immField_toNat, ← Nat.mod_mod_of_dvd w.toNat hdvd, h, Nat.mod_mod_of_dvd _ hdvd]

/-- Words of one opcode that agree on the bits it uses decode alike (30_encoding.md R87). -/
theorem decode_congr {w v : Word} (hop : w.toNat / 2 ^ 28 = v.toNat / 2 ^ 28)
    (h : w.toNat % 2 ^ usedBits (w.toNat / 2 ^ 28) = v.toNat % 2 ^ usedBits (w.toNat / 2 ^ 28)) :
    decode w = decode v := by
  rw [decode_eq_ofFields w, decode_eq_ofFields v, ← hop]
  exact Claims.ofFields_congr (fun hk => field_congr h hk) (fun hk => field_congr h hk) (fun hk => field_congr h hk)
    (fun hk => field_congr h hk) (fun hk => immField_congr h (by omega))

/-! ## The encoded instruction -/

theorem encStd_toNat_low {op : Nat} (h : op < 16) (a b c : Reg) :
    (encStd op a b c).toNat % 2 ^ 28 = a.val * 64 + b.val * 8 + c.val := by
  rw [encStd_toNat h]
  omega

/-- The encoder writes 0 in every bit that the opcode does not use (30_encoding.md R87). -/
theorem encode_unused_zero {i : Instr} (h : i.wf = true) : (encode i).toNat % 2 ^ 28 < 2 ^ usedBits i.opcode := by
  cases i with
  | cmov a b c | index a b c | amend a b c | add a b c | mul a b c | div a b c | nand a b c =>
    simp only [encode, encStd_toNat_low, Instr.opcode, usedBits, Nat.reduceLT]
    omega
  | alloc b c | loadp b c =>
    simp only [encode, encStd_toNat_low, Instr.opcode, usedBits, Nat.reduceLT, Fin.val_zero]
    omega
  | aband c | out c | inp c =>
    simp only [encode, encStd_toNat_low, Instr.opcode, usedBits, Nat.reduceLT, Fin.val_zero]
    omega
  | ortho a imm => exact Nat.mod_lt _ (by decide)
  | halt | illegal14 | illegal15 => decide

/-- R92: what the encoder writes, the decoder reads back. -/
theorem decode_encode {i : Instr} (h : i.wf = true) : decode (encode i) = i := by
  cases i with
  | cmov a b c | index a b c | amend a b c | add a b c | mul a b c | div a b c | nand a b c =>
    exact decode_encStd (by decide) a b c 0 0
  | alloc b c | loadp b c => exact decode_encStd (by decide) 0 b c 0 0
  | aband c | out c | inp c => exact decode_encStd (by decide) 0 0 c 0 0
  | ortho a imm => exact decode_encImm (of_decide_eq_true h) a
  | halt | illegal14 | illegal15 => decide

end Sys2Proof

/-- Settles O1: each standard form is a word of `encStd`, whose fields come back, and ORTHO's is one of `encImm`. -/
theorem decodeOfEncodeIsIdentity : Obligations.DecodeOfEncodeIsIdentity := by
  unfold Obligations.DecodeOfEncodeIsIdentity
  exact fun _ h => Sys2Proof.decode_encode h

/-- Settles O3: the two words as numbers, and what each decodes to. -/
theorem encodingFunctionsDecodeToTheirFields : Obligations.EncodingFunctionsDecodeToTheirFields := by
  unfold Obligations.EncodingFunctionsDecodeToTheirFields
  refine ⟨fun op a b c ia imm hop => ⟨?_, ?_⟩, fun a v hv => ⟨?_, ?_⟩, by decide, by decide⟩
  · exact Sys2Proof.encStd_toNat (by omega) a b c
  · exact Sys2Proof.decode_encStd hop a b c ia imm
  · exact Sys2Proof.encImm_toNat hv a
  · exact Sys2Proof.decode_encImm hv a

/-- Settles O4: a row of the table depends on the used fields only, each of which lies in the used bits. -/
theorem unusedBitsAreIgnoredAndWrittenZero : Obligations.UnusedBitsAreIgnoredAndWrittenZero := by
  unfold Obligations.UnusedBitsAreIgnoredAndWrittenZero
  exact ⟨fun _ _ => Sys2Proof.decode_congr, fun _ => Sys2Proof.encode_unused_zero,
    fun _ => Sys2Proof.decode_illegal_iff⟩

/-- Settles O5: the opcode of the decoded instruction is the word's, so `valid` tells the undefined ones apart. -/
theorem everyWordDecodesWellFormedAndValidIsExact : Obligations.EveryWordDecodesWellFormedAndValidIsExact := by
  unfold Obligations.EveryWordDecodesWellFormedAndValidIsExact
  intro w
  have hvalid : (Sys2Proof.decoder w).valid = true ↔
      Sys2Proof.decode w ≠ .illegal14 ∧ Sys2Proof.decode w ≠ .illegal15 := by
    rw [Sys2Proof.decoder_valid, ← not_or, Sys2Proof.decode_illegal_iff]
    omega
  exact ⟨Sys2Proof.decode_wf w, hvalid, Sys2Proof.decode_opcode w, Sys2Proof.opField_toNat w,
    Sys2Proof.regBits_toNat w 6, Sys2Proof.regBits_toNat w 3, by simpa using Sys2Proof.regBits_toNat w 0,
    Sys2Proof.regBits_toNat w 25, Sys2Proof.immField_toNat w⟩

/-- Settles O7, by running the decoder on each word. -/
theorem sampleWordsDecode : Obligations.SampleWordsDecode := by
  unfold Obligations.SampleWordsDecode
  decide

end

section
/-! What the handle table holds after each operation of the memory manager (20_memory.md R54 to R60). -/

namespace Sys2Proof.Machine

/-! ## AMEND's operation -/

theorem Memory.amend_lenOf {m n : Memory} {h i v : Word} (e : m.amend h i v = .ok n) (g : Nat) :
    n.lenOf g = m.lenOf g := by
  obtain ⟨a, ha, -, rfl⟩ := Memory.amend_cases e
  by_cases hg : g = h.toNat
  · have hnew := Memory.lookup_replace ha (a.write i.toNat v) g
    rw [if_pos hg] at hnew
    rw [Memory.lenOf_of_lookup hnew, Arr.write_len, hg, Memory.lenOf_of_lookup ha]
  · exact Memory.lenOf_congr (by rw [Memory.lookup_replace ha, if_neg hg])

theorem Memory.amend_wordAt_same {m n : Memory} {h i v : Word} (hm : m.wf) (e : m.amend h i v = .ok n) :
    n.wordAt h.toNat i.toNat = some v :=
  Memory.index_ok_iff.mp (Memory.index_of_amend hm e)

theorem Memory.amend_wordAt_other {m n : Memory} {h i v : Word} (hm : m.wf) (e : m.amend h i v = .ok n) {g j : Nat}
    (hne : ¬ (g = h.toNat ∧ j = i.toNat)) : n.wordAt g j = m.wordAt g j := by
  obtain ⟨a, ha, -, rfl⟩ := Memory.amend_cases e
  have hnew := Memory.lookup_replace ha (a.write i.toNat v) g
  by_cases hg : g = h.toNat
  · have hj : j ≠ i.toNat := fun hj => hne ⟨hg, hj⟩
    rw [if_pos hg] at hnew
    rw [Memory.wordAt_of_lookup hnew, hg, Memory.wordAt_of_lookup ha, Arr.write_len,
      Arr.read_write (Memory.lookup_wf hm ha), if_neg hj]
  · rw [if_neg hg] at hnew
    exact Memory.wordAt_congr hnew j

theorem Memory.replace_slots_length (m : Memory) (h : Nat) (a : Arr) :
    (m.replace h a).slots.length = m.slots.length := by
  cases h with
  | zero => rfl
  | succ k => exact List.length_set

/-! ## ABAND's operation -/

theorem Memory.abandon_lookup {m n : Memory} {h : Word} (e : m.abandon h = .ok n) (g : Nat) :
    n.lookup g = if g = h.toNat then none else m.lookup g := by
  obtain ⟨k, a, hk, -, rfl⟩ := Memory.abandon_cases e
  rw [hk, Memory.lookup_setNone]

/-! ## LOADP's operation -/

theorem Memory.duplicate_lookup {m n : Memory} {c : Option Nat} {h : Word} (e : m.duplicateIntoZero c h = .ok n)
    (g : Nat) : n.lookup g = if g = 0 then m.lookup h.toNat else m.lookup g := by
  rcases Memory.duplicate_cases e with ⟨rfl, rfl⟩ | ⟨-, a, ha, -, rfl⟩
  · split
    · next hg => rw [hg]; rfl
    · rfl
  · rw [Memory.lookup_array0, ha]

/-! ## ALLOC's operation -/

theorem Memory.allocate_lookup {m : Memory} {c : Option Nat} {size : Word} {r : Memory × Word}
    (e : m.allocate c size = .ok r) (g : Nat) :
    r.1.lookup g = if g = r.2.toNat then some (Arr.zeros size.toNat) else m.lookup g := by
  obtain ⟨-, -, htable, hhandle⟩ := Memory.allocate_cases e
  rw [hhandle, htable, Memory.lookup_placeSlot]

theorem Memory.lookup_allocateHandle (m : Memory) : m.lookup m.allocateHandle = none := firstFree_inactive m.slots

/-- Every handle below the one chosen is active (decision D9). -/
theorem Memory.lookup_below_allocateHandle {m : Memory} {g : Nat} (hpos : 0 < g) (hlt : g < m.allocateHandle) :
    ∃ a, m.lookup g = some a := by
  obtain ⟨k, rfl⟩ := Nat.exists_eq_succ_of_ne_zero hpos.ne'
  obtain ⟨a, ha⟩ := firstFree_lowest (Nat.lt_of_succ_lt_succ hlt)
  exact ⟨a, by rw [Memory.lookup_succ, ha]; rfl⟩

theorem Memory.allocateHandle_le_of_inactive {m : Memory} {g : Nat} (hpos : 0 < g) (hg : m.lookup g = none) :
    m.allocateHandle ≤ g := by
  by_contra hlt
  obtain ⟨a, ha⟩ := Memory.lookup_below_allocateHandle hpos (not_le.mp hlt)
  exact absurd (hg.symm.trans ha) nofun

theorem Memory.allocate_inactive {m : Memory} {c : Option Nat} {size : Word} {r : Memory × Word}
    (e : m.allocate c size = .ok r) : m.lookup r.2.toNat = none := by
  obtain ⟨-, -, -, hhandle⟩ := Memory.allocate_cases e
  rw [hhandle, Memory.lookup_allocateHandle]

end Sys2Proof.Machine

end

section
/-! A fault's frame, and the shapes in which an instruction that takes no fault ends. Claims over all steps split on
these. -/

namespace Sys2Proof.Machine

/-! ## Faults -/

/-- A fault writes the run state and the record, and nothing else (60_exceptions.md R200). -/
theorem State.raise_takesFault (s : State) (c : Cause) : takesFault c.kind.toNat c.sub.toNat s (s.raise c) :=
  ⟨rfl, rfl, rfl, rfl, rfl, fun _ => rfl, rfl, s.raise_sameArrays c, rfl, rfl, rfl⟩

/-! ## Ends without a fault -/

/-- The states in which an instruction that takes no fault can end, by what it does to the state. -/
inductive Ending (i : Instr) (s : State) : State → Prop
  | advanced : Ending i s s.advance
  | wrote (a : Reg) (v : Word) : Ending i s (s.writeReg a v).advance
  | amended {h j v : Word} {m : Memory} (e : s.mem.amend h j v = .ok m) : Ending i s (s.setMem m).advance
  | allocated {b : Reg} {size : Word} {r : Memory × Word} (hi : ∃ c, i = .alloc b c)
      (e : s.mem.allocate s.capacity size = .ok r) : Ending i s ((s.setMem r.1).writeReg b r.2).advance
  | abandoned {h : Word} {m : Memory} (e : s.mem.abandon h = .ok m) : Ending i s (s.setMem m).advance
  | duplicated {b c : Reg} {m : Memory} (hi : i = .loadp b c)
      (e : s.mem.duplicateIntoZero s.capacity (s.readReg b) = .ok m) :
      Ending i s ((s.setMem m).setFinger (s.readReg c))
  | halted (hi : i = .halt) : Ending i s (s.setRun .halted).advance
  | sent {y : Byte} (hi : ∃ c, i = .out c) : Ending i s (s.emit y).advance
  | waited (hi : ∃ c, i = .inp c) (hin : s.input = []) : Ending i s s
  | took {c : Reg} {r : Answer} {rest : List Answer} (hi : i = .inp c) (hin : s.input = r :: rest) :
      Ending i s ((s.setInput rest).writeReg c (answerWord r)).advance

theorem Ran.ending {i : Instr} {s t : State} (h : Ran i s t) : Ending i s t := by
  cases i with
  | cmov a b c =>
    rcases h with ⟨-, rfl⟩ | ⟨-, rfl⟩
    · exact .wrote ..
    · exact .advanced
  | add a b c | mul a b c | nand a b c | ortho a imm => cases h; exact .wrote ..
  | index a b c => obtain ⟨v, -, rfl⟩ := h; exact .wrote ..
  | div a b c => obtain ⟨-, rfl⟩ := h; exact .wrote ..
  | amend a b c => obtain ⟨m, e, rfl⟩ := h; exact .amended e
  | halt => cases h; exact .halted rfl
  | alloc b c => obtain ⟨r, e, rfl⟩ := h; exact .allocated ⟨c, rfl⟩ e
  | aband c => obtain ⟨m, e, rfl⟩ := h; exact .abandoned e
  | out c => obtain ⟨-, rfl⟩ := h; exact .sent ⟨c, rfl⟩
  | inp c =>
    rcases h with ⟨hin, rfl⟩ | ⟨r, rest, hin, rfl⟩
    · exact .waited ⟨c, rfl⟩ hin
    · exact .took rfl hin
  | loadp b c => obtain ⟨m, e, rfl⟩ := h; exact .duplicated rfl e
  | illegal14 | illegal15 => exact h.elim

section
variable {i : Instr} {s t : State}

theorem Ending.fault_eq (h : Ending i s t) : t.fault = s.fault := by cases h <;> rfl

/-- Only HALT changes the run state, and sets the finger one further (44_control.md R160, decision D12). -/
theorem Ending.run_cases (h : Ending i s t) :
    (i = .halt ∧ t.run = .halted ∧ t.finger = s.finger + 1#32) ∨ t.run = s.run := by
  cases h with
  | halted hi => exact .inl ⟨hi, rfl, rfl⟩
  | _ => exact .inr rfl

/-- The finger advances but at LOADP and at an IN that waits (40_cycle.md R105, R106). -/
theorem Ending.finger_cases (h : Ending i s t) :
    advances s t ∨ (∃ b c, i = .loadp b c) ∨ ((∃ c, i = .inp c) ∧ s.input = []) := by
  cases h with
  | duplicated hi => exact .inr (.inl ⟨_, _, hi⟩)
  | waited hi hin => exact .inr (.inr ⟨hi, hin⟩)
  | _ => exact .inl s.advance_advances

theorem Ending.output_cases (h : Ending i s t) :
    t.output = s.output ∨ ∃ c y, i = .out c ∧ t.output = s.output ++ [y] := by
  cases h with
  | sent hi => obtain ⟨c, hi⟩ := hi; exact .inr ⟨c, _, hi, rfl⟩
  | _ => exact .inl rfl

theorem Ending.input_cases (h : Ending i s t) :
    t.input = s.input ∨ ∃ c r, i = .inp c ∧ s.input = r :: t.input := by
  cases h with
  | took hi hin => exact .inr ⟨_, _, hi, hin⟩
  | _ => exact .inl rfl

theorem Ending.keeps_wf (h : Ending i s t) (hm : s.mem.wf) : t.mem.wf := by
  cases h with
  | amended e => exact Memory.amend_wf hm e
  | allocated _ e => exact Memory.allocate_wf hm e
  | abandoned e => exact Memory.abandon_wf hm e
  | duplicated _ e => exact Memory.duplicate_wf hm e
  | _ => exact hm

theorem Ending.keeps_capacity (h : Ending i s t) (hc : exceeds s.mem.used s.capacity = false) :
    exceeds t.mem.used t.capacity = false := by
  cases h with
  | amended e =>
    have hused := Memory.amend_used e
    simpa [hused] using hc
  | allocated _ e => exact Memory.allocate_used e
  | abandoned e =>
    obtain ⟨a, -, hused⟩ := Memory.abandon_used e
    exact exceeds_mono hc (by simp only [State.advance_mem, State.setMem_mem]; omega)
  | duplicated _ e =>
    rcases Memory.duplicate_used e with rfl | hfits
    · exact hc
    · exact hfits
  | _ => exact hc

/-- An inactive handle stays inactive unless ALLOC gives it out. -/
theorem Ending.keeps_inactive (h : Ending i s t) {g : Nat} (hg : s.mem.lenOf g = none) :
    t.mem.lenOf g = none ∨ ∃ b c, i = .alloc b c ∧ t.run = s.run ∧ (t.readReg b).toNat = g := by
  have hlookup := Memory.lookup_of_lenOf_none hg
  have hpos : g ≠ 0 := fun hz => by simp [hz] at hg
  cases h with
  | amended e => exact .inl ((Memory.amend_lenOf e g).trans hg)
  | @allocated b _ r hi e =>
    obtain ⟨c, hi⟩ := hi
    by_cases hnew : g = r.2.toNat
    · exact .inr ⟨b, c, hi, rfl, by simp [hnew]⟩
    · exact .inl (Memory.lenOf_of_inactive (by simp [Memory.allocate_lookup e, hnew, hlookup]))
  | abandoned e => exact .inl (Memory.lenOf_of_inactive (by simp [Memory.abandon_lookup e, hlookup]))
  | duplicated _ e => exact .inl (Memory.lenOf_of_inactive (by simp [Memory.duplicate_lookup e, hpos, hlookup]))
  | _ => exact .inl hg

/-- No array changes its length but array 0 at LOADP (20_memory.md R52, R60). -/
theorem Ending.keeps_length (h : Ending i s t) {g n k : Nat} (hs : s.mem.lenOf g = some n)
    (ht : t.mem.lenOf g = some k) : k = n ∨ (g = 0 ∧ ∃ b c, i = .loadp b c) := by
  obtain ⟨a, ha, -⟩ := Memory.lookup_of_lenOf hs
  have same (e : t.mem.lookup g = s.mem.lookup g) : k = n :=
    Option.some.inj (ht.symm.trans ((Memory.lenOf_congr e).trans hs))
  cases h with
  | amended e => exact .inl (Option.some.inj (ht.symm.trans ((Memory.amend_lenOf e g).trans hs)))
  | allocated _ e =>
    refine .inl (same ((Memory.allocate_lookup e g).trans (if_neg fun hnew => ?_)))
    exact absurd ((hnew ▸ Memory.allocate_inactive e).symm.trans ha) nofun
  | abandoned e =>
    refine .inl (same ((Memory.abandon_lookup e g).trans (if_neg fun hfreed => ?_)))
    rw [State.advance_mem, State.setMem_mem,
      Memory.lenOf_of_inactive ((Memory.abandon_lookup e g).trans (if_pos hfreed))] at ht
    cases ht
  | duplicated hi e =>
    by_cases hg : g = 0
    · exact .inr ⟨hg, _, _, hi⟩
    · exact .inl (same ((Memory.duplicate_lookup e g).trans (if_neg hg)))
  | _ => exact .inl (same rfl)

/-- The handle table never gets shorter (decision D15). -/
theorem Ending.slots_length_le (h : Ending i s t) : s.mem.slots.length ≤ t.mem.slots.length := by
  cases h with
  | amended e =>
    obtain ⟨a, -, -, rfl⟩ := Memory.amend_cases e
    exact (Memory.replace_slots_length ..).ge
  | allocated _ e =>
    obtain ⟨-, -, htable, -⟩ := Memory.allocate_cases e
    simp [htable, placeSlot_length (firstFree_le s.mem.slots)]
  | abandoned e =>
    obtain ⟨k, a, -, -, rfl⟩ := Memory.abandon_cases e
    exact List.length_set.ge
  | duplicated _ e => rcases Memory.duplicate_cases e with ⟨-, rfl⟩ | ⟨-, a, -, -, rfl⟩ <;> exact le_rfl
  | _ => exact le_rfl

end

/-! ## One step -/

/-- Everything a step can do when it answers a next state: it took a fault, never a LoadError, or it ran the decoded
platter without one. -/
theorem step_raised_or_ran {s t : State} (h : step s = .next t) :
    s.run = .running ∧
      ((∃ c : Cause, c ≠ .loadError ∧ t = s.raise c) ∨ ∃ w, s.fetch = some w ∧ Ran (decode w) s t) := by
  obtain ⟨hrun, ⟨-, rfl⟩ | ⟨w, hw, hexec⟩⟩ := step_cases h
  · exact ⟨hrun, .inl ⟨_, by decide, rfl⟩⟩
  · rcases exec_cases hexec with ⟨c, hc, -, rfl⟩ | hran
    · exact ⟨hrun, .inl ⟨c, hc, rfl⟩⟩
    · exact ⟨hrun, .inr ⟨w, hw, hran⟩⟩

/-- A step's run state tells a fault from an instruction that ran. -/
theorem step_ran_of_not_faulted {s t : State} (h : step s = .next t) (ht : t.run ≠ .faulted) :
    ∃ w, s.fetch = some w ∧ Ran (decode w) s t := by
  obtain ⟨-, ⟨c, -, rfl⟩ | hran⟩ := step_raised_or_ran h
  · exact absurd (s.raise_run c) ht
  · exact hran

theorem Ending.not_faulted {i : Instr} {s t : State} (h : Ending i s t) (hrun : s.run = .running) :
    t.run ≠ .faulted := by
  rcases h.run_cases with ⟨-, ht, -⟩ | ht
  · simp [ht]
  · simp [ht, hrun]

/-! ## The invariant -/

theorem State.recordFits_of_clear {s : State} (hrun : s.run ≠ .faulted) (hf : s.fault = .clear) : s.recordFits := by
  unfold State.recordFits
  split
  · exact hf
  · exact hf
  · next hfaulted => exact absurd hfaulted hrun

theorem State.recordFits_raise (s : State) (c : Cause) : (s.raise c).recordFits := ⟨rfl, c, rfl, rfl⟩

theorem State.Inv.fault_clear {s : State} (h : s.Inv) (hrun : s.run = .running) : s.fault = .clear := by
  have hrecord := h.record
  rwa [State.recordFits, hrun] at hrecord

theorem State.withinCapacity_iff {s : State} : s.withinCapacity = true ↔ exceeds s.mem.used s.capacity = false := by
  simp [State.withinCapacity]

theorem State.Inv.raise {s : State} (h : s.Inv) (c : Cause) : (s.raise c).Inv :=
  ⟨h.memory, h.capacity, s.recordFits_raise c⟩

theorem State.Inv.ending {i : Instr} {s t : State} (h : s.Inv) (hrun : s.run = .running) (e : Ending i s t) : t.Inv where
  memory := e.keeps_wf h.memory
  capacity := State.withinCapacity_iff.mpr (e.keeps_capacity (State.withinCapacity_iff.mp h.capacity))
  record := State.recordFits_of_clear (e.not_faulted hrun) (e.fault_eq.trans (h.fault_clear hrun))

theorem step_keeps_inv {s t : State} (hinv : s.Inv) (h : step s = .next t) : t.Inv := by
  obtain ⟨hrun, ⟨c, -, rfl⟩ | ⟨w, -, hran⟩⟩ := step_raised_or_ran h
  · exact hinv.raise c
  · exact hinv.ending hrun hran.ending

end Sys2Proof.Machine

/-- Settles O54: a fault writes the record alone, and every ending without one keeps the table's form, CAPACITY and the
clear record. -/
theorem everyStepKeepsTheInvariant : Obligations.EveryStepKeepsTheInvariant := by
  unfold Obligations.EveryStepKeepsTheInvariant
  exact fun _ _ => Sys2Proof.Machine.step_keeps_inv

end

section
/-! Each instruction has one answer, and what that answer is by the result of its operation. -/

namespace Sys2Proof.Machine

/-! ## Memory operations that fault or succeed -/

theorem Memory.ne_zero_of_inactive {m : Memory} {h : Word} (hi : m.lookup h.toNat = none) : h ≠ 0#32 := by
  rintro rfl
  cases hi

theorem Memory.duplicate_ok {m : Memory} {c : Option Nat} {h : Word} {a : Arr} (hne : h ≠ 0#32)
    (ha : m.lookup h.toNat = some a) (hfits : exceeds (m.used - m.array0.len + a.len) c = false) :
    m.duplicateIntoZero c h = .ok { m with array0 := a } := by
  simp [Memory.duplicateIntoZero, hne, ha, hfits]

theorem Memory.duplicate_inactive {m : Memory} {h : Word} (c : Option Nat) (hi : m.lookup h.toNat = none) :
    m.duplicateIntoZero c h = .error .loadpInactive := by
  simp [Memory.duplicateIntoZero, Memory.ne_zero_of_inactive hi, hi]

theorem Memory.duplicate_exhausted {m : Memory} {c : Option Nat} {h : Word} {a : Arr} (hne : h ≠ 0#32)
    (ha : m.lookup h.toNat = some a) (hexceeds : exceeds (m.used - m.array0.len + a.len) c = true) :
    m.duplicateIntoZero c h = .error .exhausted := by
  simp [Memory.duplicateIntoZero, hne, ha, hexceeds]

theorem Memory.allocate_exhausted {m : Memory} {c : Option Nat} {size : Word}
    (h : exceeds (m.used + size.toNat) c = true ∨ 2 ^ 32 ≤ m.allocateHandle) :
    m.allocate c size = .error .exhausted := by
  rw [Memory.allocate, if_pos (by simpa using h)]

/-! ## One answer -/

theorem next_unique {o : Result} {t u : State} (ht : o = .next t) (hu : o = .next u) : t = u :=
  Host.Outcome.next.inj (ht.symm.trans hu)

theorem conclude_total (s : State) (r : Except Cause State) : ∃ t, conclude s r = .next t := by
  cases r with
  | ok t => exact ⟨t, rfl⟩
  | error c => exact ⟨s.raise c, rfl⟩

/-! ## The instructions, by the result of their operation -/

theorem exec_div_of_ne_zero {s : State} {c : Reg} (hc : s.readReg c ≠ 0#32) (a b : Reg) :
    exec (.div a b c) s = .next (s.writeReg a (divWords (s.readReg b) (s.readReg c))).advance := by
  simp [exec, execDiv, hc]

theorem exec_div_of_eq_zero {s : State} {c : Reg} (hc : s.readReg c = 0#32) (a b : Reg) :
    exec (.div a b c) s = .next (s.raise .divideByZero) := by
  simp [exec, execDiv, hc]

theorem exec_halt (s : State) : exec .halt s = .next (s.setRun .halted).advance := rfl

theorem exec_alloc_of_ok {s : State} {c : Reg} {r : Memory × Word}
    (e : s.mem.allocate s.capacity (s.readReg c) = .ok r) (b : Reg) :
    exec (.alloc b c) s = .next ((s.setMem r.1).writeReg b r.2).advance := by
  simp [exec, execAlloc, e]

theorem exec_alloc_of_error {s : State} {c : Reg} {k : Cause}
    (e : s.mem.allocate s.capacity (s.readReg c) = .error k) (b : Reg) :
    exec (.alloc b c) s = .next (s.raise k) := by
  simp [exec, execAlloc, e]

theorem exec_aband_of_ok {s : State} {c : Reg} {m : Memory} (e : s.mem.abandon (s.readReg c) = .ok m) :
    exec (.aband c) s = .next (s.setMem m).advance := by
  simp [exec, execAband, e]

theorem exec_aband_of_error {s : State} {c : Reg} {k : Cause} (e : s.mem.abandon (s.readReg c) = .error k) :
    exec (.aband c) s = .next (s.raise k) := by
  simp [exec, execAband, e]

theorem exec_out_of_le {s : State} {c : Reg} (hc : (s.readReg c).toNat ≤ 255) :
    exec (.out c) s = .next (s.emit ((s.readReg c).setWidth 8)).advance := by
  simp [exec, execOut, exceedsByte, Nat.not_lt.mpr hc]

theorem exec_out_of_gt {s : State} {c : Reg} (hc : 255 < (s.readReg c).toNat) :
    exec (.out c) s = .next (s.raise .outputRange) := by
  simp [exec, execOut, exceedsByte, hc]

theorem exec_inp_of_nil {s : State} (hin : s.input = []) (c : Reg) : exec (.inp c) s = .next s := by
  simp [exec, execInp, hin]

theorem exec_inp_of_cons {s : State} {r : Answer} {rest : List Answer} (hin : s.input = r :: rest) (c : Reg) :
    exec (.inp c) s = .next ((s.setInput rest).writeReg c (answerWord r)).advance := by
  simp [exec, execInp, hin]

theorem exec_loadp_of_ok {s : State} {b : Reg} {m : Memory}
    (e : s.mem.duplicateIntoZero s.capacity (s.readReg b) = .ok m) (c : Reg) :
    exec (.loadp b c) s = .next ((s.setMem m).setFinger (s.readReg c)) := by
  simp [exec, execLoadp, e]

theorem exec_loadp_of_error {s : State} {b : Reg} {k : Cause}
    (e : s.mem.duplicateIntoZero s.capacity (s.readReg b) = .error k) (c : Reg) :
    exec (.loadp b c) s = .next (s.raise k) := by
  simp [exec, execLoadp, e]

/-- Every instruction has a next state, from every state (40_cycle.md R105, R106). -/
theorem exec_total (i : Instr) (s : State) : ∃ t, exec i s = .next t := by
  cases i with
  | cmov a b c =>
    by_cases hc : s.readReg c = 0#32
    · exact ⟨_, exec_cmov_of_eq_zero hc a b⟩
    · exact ⟨_, exec_cmov_of_ne_zero hc a b⟩
  | inp c =>
    cases hin : s.input with
    | nil => exact ⟨_, exec_inp_of_nil hin c⟩
    | cons r rest => exact ⟨_, exec_inp_of_cons hin c⟩
  | add a b c | mul a b c | nand a b c | ortho a imm | halt => exact ⟨_, rfl⟩
  | index a b c | amend a b c | div a b c | alloc b c | aband c | out c | loadp b c => exact conclude_total s _
  | illegal14 | illegal15 => exact conclude_total s (.error .decodeError)

/-! ## Frames of the table -/

theorem sameArrays_of_mem_eq {s t : State} (h : t.mem = s.mem) : sameArrays s t := fun _ => by simp [h]

theorem sameArraysBut_of_lookup {s t : State} {g : Nat} (h : ∀ k, k ≠ g → t.mem.lookup k = s.mem.lookup k) :
    sameArraysBut g s t :=
  fun k hk => ⟨Memory.lenOf_congr (h k hk), Memory.wordAt_congr (h k hk)⟩

end Sys2Proof.Machine

end

section
/-! INDEX, AMEND and DIV: each clause names one answer of the operation, which fixes the state (42_array_access.md,
43_alu.md). -/

namespace Sys2Proof.Machine

theorem Memory.wordAt_eq_some_iff {m : Memory} {h i : Nat} :
    (∃ v, m.wordAt h i = some v) ↔ ∃ n, m.lenOf h = some n ∧ i < n := by
  cases ha : m.lookup h with
  | none => simp [Memory.wordAt_of_inactive ha, Memory.lenOf_of_inactive ha]
  | some a => simp [Memory.wordAt_of_lookup ha, Memory.lenOf_of_lookup ha]

/-- The quotient is narrowed to a word that holds it whole. -/
theorem divWords_toNat (b c : Word) : (divWords b c).toNat = b.toNat / c.toNat := by
  have hle := Nat.div_le_self b.toNat c.toNat
  rw [divWords, BitVec.toNat_ofNat, Nat.mod_eq_of_lt (hle.trans_lt b.isLt)]

/-- `divWords` is the floor of the quotient (43_alu.md R144). -/
theorem divWords_floor (b : Word) {c : Word} (hc : c ≠ 0#32) :
    (divWords b c).toNat * c.toNat ≤ b.toNat ∧ b.toNat < ((divWords b c).toNat + 1) * c.toNat := by
  have hpos : 0 < c.toNat := Nat.pos_of_ne_zero fun h => hc (BitVec.eq_of_toNat_eq h)
  rw [divWords_toNat, Nat.mul_comm _ c.toNat, Nat.mul_comm _ c.toNat]
  exact ⟨Nat.mul_div_le .., Nat.lt_mul_div_succ _ hpos⟩

/-- The frame of an AMEND that does not fault: one word (42_array_access.md R132). -/
theorem State.advance_setMem_amend_frame {s : State} {h i v : Word} {m : Memory} (hwf : s.mem.wf)
    (e : s.mem.amend h i v = .ok m) :
    (s.setMem m).advance.mem.wordAt h.toNat i.toNat = some v ∧
      (∀ g j : Nat, ¬ (g = h.toNat ∧ j = i.toNat) → (s.setMem m).advance.mem.wordAt g j = s.mem.wordAt g j) ∧
      (∀ g : Nat, (s.setMem m).advance.mem.lenOf g = s.mem.lenOf g) ∧
      sameRegs s (s.setMem m).advance ∧ advances s (s.setMem m).advance ∧ sameRun s (s.setMem m).advance ∧
      sameOutside s (s.setMem m).advance :=
  ⟨Memory.amend_wordAt_same hwf e, fun _ _ => Memory.amend_wordAt_other hwf e, Memory.amend_lenOf e, fun _ => rfl,
    (s.setMem m).advance_advances, ⟨rfl, rfl⟩, rfl, rfl, rfl⟩

end Sys2Proof.Machine

open Sys2Proof Sys2Proof.Machine

/-- Settles O11: both sides ask for an array under the handle and an offset below its length. -/
theorem wordsStandBelowTheLength : Obligations.WordsStandBelowTheLength := by
  unfold Obligations.WordsStandBelowTheLength
  exact fun _ _ _ => Memory.wordAt_eq_some_iff

/-- Settles O10: each clause's hypothesis decides what the read of memory answers, a word or one of the two causes. -/
theorem indexReadsTheWordOrFaults : Obligations.IndexReadsTheWordOrFaults := by
  unfold Obligations.IndexReadsTheWordOrFaults
  intro s a b c
  obtain ⟨t, ht⟩ := exec_total (.index a b c) s
  refine ⟨decode_encStd (by decide) a b c 0 0, t, ht, fun v hword => ?_, fun hnone => ?_, fun n hlen hn => ?_⟩
  · obtain rfl := next_unique ht (exec_index_of_ok (Memory.index_ok_iff.mpr hword) a)
    exact s.advance_writeReg_writesOnly a v
  · have herror := Memory.index_inactive (s.readReg c) (Memory.lookup_of_lenOf_none hnone)
    obtain rfl := next_unique ht (exec_index_of_error herror a)
    exact s.raise_takesFault .inactiveHandle
  · obtain ⟨arr, ha, rfl⟩ := Memory.lookup_of_lenOf hlen
    obtain rfl := next_unique ht (exec_index_of_error (Memory.index_oob ha hn) a)
    exact s.raise_takesFault .offsetOob

/-- Settles O12: inside the array the frame of the write, and otherwise one of the two causes. -/
theorem amendStoresTheWordOrFaults : Obligations.AmendStoresTheWordOrFaults := by
  unfold Obligations.AmendStoresTheWordOrFaults
  intro s a b c hwf
  obtain ⟨t, ht⟩ := exec_total (.amend a b c) s
  refine ⟨decode_encStd (by decide) a b c 0 0, t, ht, fun n hlen hn => ?_, fun hnone => ?_, fun n hlen hn => ?_⟩
  · obtain ⟨arr, ha, rfl⟩ := Memory.lookup_of_lenOf hlen
    have hok := Memory.amend_ok (s.readReg c) ha hn
    obtain rfl := next_unique ht (exec_amend_of_ok hok)
    exact State.advance_setMem_amend_frame hwf hok
  · have herror := Memory.amend_inactive (s.readReg b) (s.readReg c) (Memory.lookup_of_lenOf_none hnone)
    obtain rfl := next_unique ht (exec_amend_of_error herror)
    exact s.raise_takesFault .inactiveHandle
  · obtain ⟨arr, ha, rfl⟩ := Memory.lookup_of_lenOf hlen
    obtain rfl := next_unique ht (exec_amend_of_error (Memory.amend_oob (s.readReg c) ha hn))
    exact s.raise_takesFault .offsetOob

/-- Settles O16: the quotient of naturals fits a word and is the floor, and a divisor of 0 takes the fault. -/
theorem divWritesTheQuotientOrFaults : Obligations.DivWritesTheQuotientOrFaults := by
  unfold Obligations.DivWritesTheQuotientOrFaults
  intro s a b c
  obtain ⟨t, ht⟩ := exec_total (.div a b c) s
  refine ⟨decode_encStd (by decide) a b c 0 0, t, ht, fun hc => ?_, fun hc => ?_⟩
  · obtain rfl := next_unique ht (exec_div_of_ne_zero hc a b)
    exact ⟨_, s.advance_writeReg_writesOnly a _, divWords_floor (s.readReg b) hc⟩
  · obtain rfl := next_unique ht (exec_div_of_eq_zero hc a b)
    exact s.raise_takesFault .divideByZero

end

section
/-! The two composed operations of the spec: subtraction (43_alu.md) and the conditional branch (44_control.md). -/

namespace Sys2Proof.Machine

@[simp] theorem execAll_nil (s : State) : execAll [] s = .next s := rfl

theorem execAll_cons {i : Instr} {is : List Instr} {s t u : State} (h : exec i s = .next t)
    (hs : execAll is t = .next u) : execAll (i :: is) s = .next u := by
  simpa [execAll, h] using hs

/-- The complement of a word AND itself, plus 1, is its negation, so adding it subtracts. -/
theorem addWords_neg_toNat (b c : Word) :
    (addWords b (addWords (nandWords c c) 1#32)).toNat = (b.toNat + 2 ^ 32 - c.toNat) % 2 ^ 32 := by
  have hc := c.isLt
  have hnot : (nandWords c c).toNat = 2 ^ 32 - 1 - c.toNat := by rw [nandWords, BitVec.and_self, BitVec.toNat_not]
  have hone : (1#32 : Word).toNat = 1 := rfl
  rw [addWords_toNat, addWords_toNat, hnot, hone]
  omega

/-- The state after the branch's two ORTHOs, with the two targets in `rt` and `rf`. -/
def State.loadTargets (s : State) (rt rf : Reg) (T F : Word) : State :=
  ((s.writeReg rt T).advance.writeReg rf F).advance

theorem State.loadTargets_readReg (s : State) {rt rf : Reg} (T F : Word) (q : Reg) :
    (s.loadTargets rt rf T F).readReg q = if q = rf then F else if q = rt then T else s.readReg q := by
  simp [State.loadTargets, State.readReg_writeReg]

/-- LOADP of handle 0 is a jump (44_control.md R161). -/
theorem exec_loadp_zero {s : State} {b : Reg} (hb : s.readReg b = 0#32) (c : Reg) :
    exec (.loadp b c) s = .next (s.setFinger (s.readReg c)) :=
  exec_loadp_of_ok (by rw [hb, Memory.duplicate_zero]) c

/-- The branch, from the state `v` that its CMOV leaves: the jump goes to x[rf]. -/
theorem execAll_branch {s v : State} {rt rf rc rz : Reg} {T F : Word}
    (hcmov : exec (.cmov rf rt rc) (s.loadTargets rt rf T F) = .next v) (hz : v.readReg rz = 0#32) :
    execAll [.ortho rt T, .ortho rf F, .cmov rf rt rc, .loadp rz rf] s = .next (v.setFinger (v.readReg rf)) :=
  execAll_cons (exec_ortho ..) <| execAll_cons (exec_ortho ..) <| execAll_cons hcmov <|
    execAll_cons (exec_loadp_zero hz rf) <| execAll_nil _

end Sys2Proof.Machine

open Sys2Proof Sys2Proof.Machine

/-- Settles O18: the four results one after another, the work registers apart from `b` and from each other. -/
theorem subtractionIsComposed : Obligations.SubtractionIsComposed := by
  unfold Obligations.SubtractionIsComposed
  intro s a b c u o hub hob hou
  refine ⟨_, execAll_cons (exec_nand ..) <| execAll_cons (exec_ortho ..) <| execAll_cons (exec_add ..) <|
    execAll_cons (exec_add ..) <| execAll_nil _, ?_⟩
  simp only [State.advance_readReg, State.readReg_writeReg_same, State.readReg_writeReg, hub.symm, hob.symm, hou.symm,
    if_false]
  exact addWords_neg_toNat ..

/-- Settles O22: CMOV leaves `T` or `F` in `rf`, and LOADP of handle 0 makes it the finger. -/
theorem conditionalBranchIsComposed : Obligations.ConditionalBranchIsComposed := by
  unfold Obligations.ConditionalBranchIsComposed
  intro s rt rf rc rz T F _ _ htf hct hcf hzt hzf hrz
  have hcond : (s.loadTargets rt rf T F).readReg rc = s.readReg rc := by simp [State.loadTargets_readReg, hct, hcf]
  have hzero : (s.loadTargets rt rf T F).readReg rz = 0#32 := by simp [State.loadTargets_readReg, hzt, hzf, hrz]
  by_cases hc : s.readReg rc = 0#32
  · have hcmov := exec_cmov_of_eq_zero (hcond.trans hc) rf rt
    refine ⟨_, execAll_branch hcmov hzero, fun hne => absurd hc hne, fun _ => ?_, ⟨rfl, rfl⟩, sameArrays_of_mem_eq rfl,
      rfl, rfl, rfl⟩
    simp [State.loadTargets_readReg]
  · have hcmov := exec_cmov_of_ne_zero (hcond ▸ hc) rf rt
    refine ⟨_, execAll_branch hcmov ?_, fun _ => ?_, fun hz => absurd hz hc, ⟨rfl, rfl⟩, sameArrays_of_mem_eq rfl,
      rfl, rfl, rfl⟩
    · rwa [State.advance_readReg, State.readReg_writeReg_other _ _ hzf]
    · simp [State.loadTargets_readReg, htf]

end

section
/-! HALT, LOADP, ALLOC, ABAND, OUT and IN: each clause names one answer of the operation, which fixes the state
(44_control.md, 45_array_mgmt.md, 46_io.md). -/

namespace Sys2Proof.Machine

/-! ## Words in use -/

theorem slotsWords_eq_sum (os : List (Option Arr)) :
    slotsWords os = ((List.range os.length).map fun k => ((os[k]?).join.map Arr.len).getD 0).sum := by
  induction os with
  | nil => rfl
  | cons o os ih =>
    rw [slotsWords, ih, List.length_cons, List.range_succ_eq_map, List.map_cons, List.map_map, List.sum_cons]
    cases o <;> rfl

/-- Array 0 and the slots together are the handles 0 to n - 1 (10_state.md R38, R41). -/
theorem Memory.used_eq_sum (m : Memory) :
    m.used = ((List.range (m.slots.length + 1)).map fun h => (m.lenOf h).getD 0).sum := by
  rw [List.range_succ_eq_map, List.map_cons, List.map_map, List.sum_cons, Memory.used, slotsWords_eq_sum]
  rfl

/-! ## Frames of the instructions that write the table -/

/-- A new array under the lowest free handle, and the handle in the register (45_array_mgmt.md R170). -/
theorem State.allocate_frame {s : State} {size : Word} {r : Memory × Word}
    (e : s.mem.allocate s.capacity size = .ok r) {t : State} {b : Reg}
    (ht : t = ((s.setMem r.1).writeReg b r.2).advance) :
    t.readReg b = r.2 ∧ 0 < r.2.toNat ∧ s.mem.lenOf r.2.toNat = none ∧
      (∀ g : Nat, 0 < g → g < r.2.toNat → s.mem.lenOf g ≠ none) ∧
      t.mem.lenOf r.2.toNat = some size.toNat ∧
      (∀ i : Nat, i < size.toNat → t.mem.wordAt r.2.toNat i = some 0#32) ∧
      sameArraysBut r.2.toNat s t ∧ sameRegsBut b s t ∧ advances s t ∧ sameRun s t ∧ sameOutside s t := by
  obtain ⟨-, -, -, hhandle⟩ := Memory.allocate_cases e
  have hnew := Memory.allocate_lookup e r.2.toNat
  rw [if_pos rfl] at hnew
  subst ht
  refine ⟨?_, ?_, Memory.lenOf_of_inactive (Memory.allocate_inactive e), fun g hpos hlt => ?_,
    Memory.lenOf_of_lookup hnew, fun i hi => ?_, sameArraysBut_of_lookup fun k hk => ?_,
    fun q hq => (s.setMem r.1).readReg_writeReg_other _ hq, s.advance_advances, ⟨rfl, rfl⟩, rfl, rfl, rfl⟩
  · simp
  · rw [hhandle]
    exact Nat.succ_pos _
  · obtain ⟨a, ha⟩ := Memory.lookup_below_allocateHandle hpos (hhandle ▸ hlt)
    simp [Memory.lenOf_of_lookup ha]
  · exact (Memory.wordAt_of_lookup hnew i).trans (if_pos hi)
  · exact (Memory.allocate_lookup e k).trans (if_neg hk)

/-- The handle becomes inactive and its words are free again (45_array_mgmt.md R173). -/
theorem State.abandon_frame {s : State} {h : Word} {m : Memory} (e : s.mem.abandon h = .ok m) {n : Nat}
    (hlen : s.mem.lenOf h.toNat = some n) :
    m.lenOf h.toNat = none ∧ (∀ i, m.wordAt h.toNat i = none) ∧ m.used + n = s.mem.used ∧
      sameArraysBut h.toNat s (s.setMem m).advance := by
  have hfreed := Memory.abandon_lookup e h.toNat
  rw [if_pos rfl] at hfreed
  obtain ⟨a, ha, hused⟩ := Memory.abandon_used e
  obtain rfl : a.len = n := Option.some.inj ((Memory.lenOf_of_lookup ha).symm.trans hlen)
  exact ⟨Memory.lenOf_of_inactive hfreed, Memory.wordAt_of_inactive hfreed, hused,
    sameArraysBut_of_lookup fun k hk => (Memory.abandon_lookup e k).trans (if_neg hk)⟩

/-- Array 0 becomes a copy of the array and every other handle stays (44_control.md R161). -/
theorem State.duplicate_frame {s : State} {h : Word} {m : Memory}
    (e : s.mem.duplicateIntoZero s.capacity h = .ok m) (f : Word) :
    m.lenOf 0 = s.mem.lenOf h.toNat ∧ (∀ i, m.wordAt 0 i = s.mem.wordAt h.toNat i) ∧
      sameArraysBut 0 s ((s.setMem m).setFinger f) :=
  ⟨Memory.lenOf_congr (Memory.duplicate_lookup_zero e), Memory.wordAt_congr (Memory.duplicate_lookup_zero e),
    sameArraysBut_of_lookup fun k hk => (Memory.duplicate_lookup e k).trans (if_neg hk)⟩

/-! ## Handles that are not active -/

/-- Handle 0 is active, so an inactive handle passes ABAND's first check and fails its second (20_memory.md R59). -/
theorem Memory.abandon_error_of_inactive {m : Memory} {h : Word} (hi : m.lookup h.toNat = none) :
    m.abandon h = .error .abandonInactive :=
  Memory.abandon_inactive (fun hz => Memory.ne_zero_of_inactive hi (BitVec.eq_of_toNat_eq hz)) hi

/-- An active handle other than 0 can be abandoned (20_memory.md R59). -/
theorem Memory.abandon_ok_of_active {m : Memory} {h : Word} {a : Arr} (hne : h ≠ 0#32)
    (ha : m.lookup h.toNat = some a) : ∃ n, m.abandon h = .ok n := by
  obtain ⟨k, hk⟩ := Nat.exists_eq_succ_of_ne_zero fun hz => hne (BitVec.eq_of_toNat_eq hz)
  exact ⟨_, Memory.abandon_ok hk (hk ▸ ha)⟩

/-- INDEX, AMEND, ABAND and LOADP fault on a handle that is not active. -/
theorem exec_faults_of_inactive {s : State} {r : Reg} (hnone : s.mem.lenOf (s.readReg r).toNat = none) (p q : Reg) :
    exec (.index p r q) s = .next (s.raise .inactiveHandle) ∧
      exec (.amend r p q) s = .next (s.raise .inactiveHandle) ∧
      exec (.aband r) s = .next (s.raise .abandonInactive) ∧
      exec (.loadp r p) s = .next (s.raise .loadpInactive) := by
  have hlookup := Memory.lookup_of_lenOf_none hnone
  exact ⟨exec_index_of_error (Memory.index_inactive _ hlookup) p, exec_amend_of_error (Memory.amend_inactive _ _ hlookup),
    exec_aband_of_error (Memory.abandon_error_of_inactive hlookup),
    exec_loadp_of_error (Memory.duplicate_inactive _ hlookup) p⟩

/-- ABAND that does not fault leaves its handle inactive. -/
theorem Ran.aband_lenOf {s t : State} {c : Reg} (h : Ran (.aband c) s t) : t.mem.lenOf (s.readReg c).toNat = none := by
  obtain ⟨m, e, rfl⟩ := h
  exact Memory.lenOf_of_inactive ((Memory.abandon_lookup e _).trans (if_pos rfl))

/-! ## What OUT and IN carry -/

theorem setWidth_byte_toNat {v : Word} (h : v.toNat ≤ 255) : (v.setWidth 8).toNat = v.toNat := by
  rw [BitVec.toNat_setWidth]
  omega

theorem answerWord_byte_toNat (y : Byte) : (answerWord (.byte y)).toNat = y.toNat := by
  have := y.isLt
  rw [answerWord, zextByte, BitVec.toNat_setWidth]
  omega

end Sys2Proof.Machine

open Sys2Proof Sys2Proof.Machine

/-- Settles O23: array 0 and then the slots, by induction on these. -/
theorem usedSumsTheActiveLengths : Obligations.UsedSumsTheActiveLengths := by
  unfold Obligations.UsedSumsTheActiveLengths
  exact Memory.used_eq_sum

/-- Settles O19: opcode 7 uses no field, and from Halted no step is enabled. -/
theorem haltEndsTheRun : Obligations.HaltEndsTheRun := by
  unfold Obligations.HaltEndsTheRun
  refine ⟨fun w => decode_of_opcode_7, fun s => ?_⟩
  exact ⟨_, exec_halt s, rfl, rfl, fun _ => rfl, s.advance_advances, sameArrays_of_mem_eq rfl, ⟨rfl, rfl, rfl⟩,
    fun u => terminalRunStatesTakeNoStep _ u nofun⟩

/-- Settles O20: handle 0 jumps alone, and every other handle has one of the three answers of the copy. -/
theorem loadpCopiesAndJumpsOrFaults : Obligations.LoadpCopiesAndJumpsOrFaults := by
  unfold Obligations.LoadpCopiesAndJumpsOrFaults
  intro s a b c
  obtain ⟨t, ht⟩ := exec_total (.loadp b c) s
  refine ⟨decode_encStd (by decide) a b c 0 0, t, ht, fun hz => ?_, fun n z hne hlen hzero hfits => ?_,
    fun _ hnone => ?_, fun n z k hne hlen hzero hcap hk => ?_⟩
  · obtain rfl := next_unique ht (exec_loadp_zero hz c)
    exact ⟨rfl, fun _ => rfl, ⟨rfl, rfl⟩, sameArrays_of_mem_eq rfl, rfl, rfl, rfl⟩
  · obtain ⟨arr, ha, rfl⟩ := Memory.lookup_of_lenOf hlen
    obtain rfl : s.mem.array0.len = z := Option.some.inj (s.mem.lenOf_zero.symm.trans hzero)
    have hok := Memory.duplicate_ok hne ha (exceeds_eq_false_iff.mpr hfits)
    obtain rfl := next_unique ht (exec_loadp_of_ok hok c)
    obtain ⟨hlen0, hword0, harrays⟩ := State.duplicate_frame hok (s.readReg c)
    exact ⟨rfl, hlen0.trans hlen, hword0, harrays, fun _ => rfl, ⟨rfl, rfl⟩, rfl, rfl, rfl⟩
  · obtain ⟨-, -, -, hfault⟩ := exec_faults_of_inactive hnone c c
    obtain rfl := next_unique ht hfault
    exact s.raise_takesFault .loadpInactive
  · obtain ⟨arr, ha, rfl⟩ := Memory.lookup_of_lenOf hlen
    obtain rfl : s.mem.array0.len = z := Option.some.inj (s.mem.lenOf_zero.symm.trans hzero)
    have herror := Memory.duplicate_exhausted hne ha (exceeds_eq_true_iff.mpr ⟨k, hcap, hk⟩)
    obtain rfl := next_unique ht (exec_loadp_of_error herror c)
    exact s.raise_takesFault .exhausted

/-- Settles O24: a free handle bounds the one the search finds, and with none free the search runs past the last. -/
theorem allocTakesTheLowestFreeHandleOrFaults : Obligations.AllocTakesTheLowestFreeHandleOrFaults := by
  unfold Obligations.AllocTakesTheLowestFreeHandleOrFaults
  intro s a b c
  obtain ⟨t, ht⟩ := exec_total (.alloc b c) s
  refine ⟨decode_encStd (by decide) a b c 0 0, t, ht, fun hfits free hpos hlt hfree => ?_, fun k hcap hk => ?_,
    fun hall => ?_⟩
  · have hle := Memory.allocateHandle_le_of_inactive hpos (Memory.lookup_of_lenOf_none hfree)
    have hok := Memory.allocate_ok (exceeds_eq_false_iff.mpr hfits) (hle.trans_lt hlt)
    exact ⟨_, State.allocate_frame hok (next_unique ht (exec_alloc_of_ok hok b))⟩
  · have herror := Memory.allocate_exhausted (.inl (exceeds_eq_true_iff.mpr ⟨k, hcap, hk⟩))
    obtain rfl := next_unique ht (exec_alloc_of_error herror b)
    exact s.raise_takesFault .exhausted
  · have hpast : 2 ^ 32 ≤ s.mem.allocateHandle := by
      by_contra hlt
      exact hall _ (Nat.succ_pos _) (not_le.mp hlt) (Memory.lenOf_of_inactive s.mem.lookup_allocateHandle)
    obtain rfl := next_unique ht (exec_alloc_of_error (Memory.allocate_exhausted (.inr hpast)) b)
    exact s.raise_takesFault .exhausted

/-- Settles O25: an active handle other than 0 is freed, and the two other kinds of handle take their causes. -/
theorem abandFreesTheHandleOrFaults : Obligations.AbandFreesTheHandleOrFaults := by
  unfold Obligations.AbandFreesTheHandleOrFaults
  intro s a b c
  obtain ⟨t, ht⟩ := exec_total (.aband c) s
  refine ⟨decode_encStd (by decide) a b c 0 0, t, ht, fun n hne hlen => ?_, fun hz => ?_, fun _ hnone => ?_⟩
  · obtain ⟨arr, ha, -⟩ := Memory.lookup_of_lenOf hlen
    obtain ⟨m, hok⟩ := Memory.abandon_ok_of_active hne ha
    obtain rfl := next_unique ht (exec_aband_of_ok hok)
    obtain ⟨hfreed, hwords, hused, harrays⟩ := State.abandon_frame hok hlen
    exact ⟨hfreed, hwords, hused, harrays, fun _ => rfl, s.advance_advances, ⟨rfl, rfl⟩, rfl, rfl, rfl⟩
  · obtain rfl := next_unique ht (exec_aband_zero hz)
    exact s.raise_takesFault .abandonZero
  · obtain ⟨-, -, hfault, -⟩ := exec_faults_of_inactive hnone c c
    obtain rfl := next_unique ht hfault
    exact s.raise_takesFault .abandonInactive

/-- Settles O27: over a step only ALLOC makes a handle active, the one it puts in x[B]. -/
theorem staleHandleFaults : Obligations.StaleHandleFaults := by
  unfold Obligations.StaleHandleFaults
  refine ⟨fun s t c h hrun => (ran_of_running h hrun).aband_lenOf, fun s t h hstep hnone => ?_, fun s r p q hnone => ?_⟩
  · obtain ⟨hrun, ⟨c, -, rfl⟩ | ⟨w, hw, hran⟩⟩ := step_raised_or_ran hstep
    · exact .inl hnone
    · rcases hran.ending.keeps_inactive hnone with hkept | ⟨b, c, hdecode, hsame, hhandle⟩
      · exact .inl hkept
      · exact .inr ⟨w, b, c, hw, hdecode, hsame.trans hrun, hhandle⟩
  · obtain ⟨hindex, hamend, haband, hloadp⟩ := exec_faults_of_inactive hnone p q
    exact ⟨⟨_, hindex, s.raise_takesFault _⟩, ⟨_, hamend, s.raise_takesFault _⟩, ⟨_, haband, s.raise_takesFault _⟩,
      ⟨_, hloadp, s.raise_takesFault _⟩⟩

/-- Settles O28: a value up to 255 is its low byte, and a larger one takes the fault. -/
theorem outSendsOneByteOrFaults : Obligations.OutSendsOneByteOrFaults := by
  unfold Obligations.OutSendsOneByteOrFaults
  intro s a b c
  obtain ⟨t, ht⟩ := exec_total (.out c) s
  refine ⟨decode_encStd (by decide) a b c 0 0, t, ht, fun hle => ?_, fun hgt => ?_⟩
  · obtain rfl := next_unique ht (exec_out_of_le hle)
    exact ⟨⟨_, setWidth_byte_toNat hle, rfl⟩, fun _ => rfl, s.advance_advances, ⟨rfl, rfl⟩, sameArrays_of_mem_eq rfl,
      rfl, rfl⟩
  · obtain rfl := next_unique ht (exec_out_of_gt hgt)
    exact s.raise_takesFault .outputRange

/-- Settles O29: with an answer at hand IN is a register write, an advance, and the answer taken. -/
theorem inTakesTheNextAnswer : Obligations.InTakesTheNextAnswer := by
  unfold Obligations.InTakesTheNextAnswer
  intro s a b c r rest hin
  have hread : ((s.setInput rest).writeReg c (answerWord r)).advance.readReg c = answerWord r :=
    State.readReg_writeReg_same ..
  refine ⟨decode_encStd (by decide) a b c 0 0, _, exec_inp_of_cons hin c, fun y hy => ?_, fun heof => ?_, rfl,
    fun q hq => (s.setInput rest).readReg_writeReg_other _ hq, s.advance_advances, ⟨rfl, rfl⟩, sameArrays_of_mem_eq rfl,
    rfl, rfl⟩
  · rw [hread, hy, answerWord_byte_toNat]
  · rw [hread, heof, answerWord]

end

section
/-! The cycle: what a step fetches, when it faults, waits, halts or advances, and what it carries to and from the host
(40_cycle.md, 46_io.md, 60_exceptions.md). -/

namespace Sys2Proof

theorem opcode_of_decode {w : Word} {i : Instr} (h : decode w = i) : w.toNat / 2 ^ 28 = i.opcode := by
  rw [← decode_opcode, h]

namespace Machine

/-! ## The step, by what it fetches -/

theorem step_of_fetch {s : State} {w : Word} (hrun : s.run = .running) (hw : s.fetch = some w) :
    step s = exec (decode w) s := by
  simp [step, hrun, hw]

theorem step_of_no_fetch {s : State} (hrun : s.run = .running) (hnone : s.fetch = none) :
    step s = .next (s.raise .fetchOob) := by
  simp [step, hrun, hnone]

theorem step_total {s : State} (hrun : s.run = .running) : ∃ t, step s = .next t := by
  cases hw : s.fetch with
  | none => exact ⟨_, step_of_no_fetch hrun hw⟩
  | some w =>
    rw [step_of_fetch hrun hw]
    exact exec_total (decode w) s

/-- The codes that a step can take are those of 60_exceptions.md R191 and R192 but LoadError's. -/
theorem Cause.step_codes {c : Cause} (h : c ≠ .loadError) :
    (c.kind.toNat, c.sub.toNat) ∈
      [(2, 0), (3, 1), (3, 2), (3, 3), (3, 4), (4, 0), (5, 1), (5, 2), (5, 3), (6, 0)] := by
  cases c with
  | loadError => exact absurd rfl h
  | _ => decide

theorem exec_of_illegal {i : Instr} (h : i = .illegal14 ∨ i = .illegal15) (s : State) :
    exec i s = .next (s.raise .decodeError) := by
  rcases h with rfl | rfl <;> rfl

/-! ## The wait -/

theorem State.inputRequested_iff {s : State} :
    s.inputRequested = true ↔ s.run = .running ∧ ∃ w c, s.fetch = some w ∧ decode w = .inp c := by
  constructor
  · intro h
    unfold State.inputRequested at h
    split at h
    · next w hrun hw =>
      exact ⟨hrun, w, _, hw, decode_of_opcode_11 ((opField_toNat w).symm.trans (of_decide_eq_true h))⟩
    · cases h
  · rintro ⟨hrun, w, c, hw, hdecode⟩
    have hop : (opField w).toNat = 11 := (opField_toNat w).trans (opcode_of_decode hdecode)
    simp [State.inputRequested, hrun, hw, hop]

theorem State.waiting_iff {s : State} :
    s.waiting = true ↔
      s.run = .running ∧ (∃ w c, s.fetch = some w ∧ decode w = .inp c) ∧ s.input = [] := by
  rw [State.waiting, Bool.and_eq_true, State.inputRequested_iff, List.isEmpty_iff, and_assoc]

/-- A step that is not waiting and runs an IN has its answer. -/
theorem State.input_ne_nil_of_not_waiting {s : State} {w : Word} {c : Reg} (hwait : s.waiting = false)
    (hrun : s.run = .running) (hw : s.fetch = some w) (hdecode : decode w = .inp c) : s.input ≠ [] := fun hin =>
  absurd (State.waiting_iff.mpr ⟨hrun, ⟨w, c, hw, hdecode⟩, hin⟩) (Bool.eq_false_iff.mp hwait)

end Machine

end Sys2Proof

open Sys2Proof Sys2Proof.Machine

/-- Settles O33: `step` adds only the fetch. -/
theorem stepRunsTheDecodedPlatter : Obligations.StepRunsTheDecodedPlatter := by
  unfold Obligations.StepRunsTheDecodedPlatter
  exact fun _ _ => step_of_fetch

/-- Settles O34: no word stands at or beyond the end, so there is no platter to record. -/
theorem fetchOutOfBoundsFaults : Obligations.FetchOutOfBoundsFaults := by
  unfold Obligations.FetchOutOfBoundsFaults
  intro s n hrun hlen hn
  have hnone : s.fetch = none := Memory.wordAt_eq_none (.inr ⟨n, hlen, hn⟩)
  exact ⟨_, step_of_no_fetch hrun hnone, s.raise_takesFault .fetchOob, State.platter_of_no_fetch hnone⟩

/-- Settles O35: both undefined opcodes take the one cause, and the record holds the word that the step fetched. -/
theorem undefinedOpcodeIsDecodeError : Obligations.UndefinedOpcodeIsDecodeError := by
  unfold Obligations.UndefinedOpcodeIsDecodeError
  refine ⟨fun s => ⟨⟨_, exec_of_illegal (.inl rfl) s, s.raise_takesFault .decodeError⟩,
    ⟨_, exec_of_illegal (.inr rfl) s, s.raise_takesFault .decodeError⟩⟩, fun s w hrun hw hop => ?_⟩
  have hstep := (step_of_fetch hrun hw).trans (exec_of_illegal (decode_illegal_iff.mpr hop) s)
  exact ⟨_, hstep, s.raise_takesFault .decodeError, State.platter_of_fetch hw⟩

/-- Settles O37: the fetch's fault is a next state, and every instruction has one. -/
theorem runningAlwaysSteps : Obligations.RunningAlwaysSteps := by
  unfold Obligations.RunningAlwaysSteps
  exact fun _ => step_total

/-- Settles O38: no ending without a fault is Faulted, so the step raised a cause, and wrote the record alone. -/
theorem faultingStepIsPrecise : Obligations.FaultingStepIsPrecise := by
  unfold Obligations.FaultingStepIsPrecise
  intro s t h hfaulted
  obtain ⟨hrun, ⟨c, hc, rfl⟩ | ⟨w, -, hran⟩⟩ := step_raised_or_ran h
  · exact ⟨_, _, s.raise_takesFault c, Cause.step_codes hc⟩
  · exact absurd hfaulted (hran.ending.not_faulted hrun)

/-- Settles O39: of the endings without a fault only LOADP's and the wait do not advance. -/
theorem fingerAdvancesUnlessLoadp : Obligations.FingerAdvancesUnlessLoadp := by
  unfold Obligations.FingerAdvancesUnlessLoadp
  intro s t w h hw hnofault hwait
  obtain ⟨hrun, -⟩ := step_cases h
  obtain ⟨v, hv, hran⟩ := step_ran_of_not_faulted h hnofault
  obtain rfl : v = w := Option.some.inj (hv.symm.trans hw)
  refine ⟨fun hother => ?_, fun b c hloadp => ?_⟩
  · rcases hran.ending.finger_cases with hadv | ⟨b, c, hloadp⟩ | ⟨⟨c, hinp⟩, hin⟩
    · exact hadv
    · exact absurd hloadp (hother b c)
    · exact absurd hin (State.input_ne_nil_of_not_waiting hwait hrun hw hinp)
  · rw [hloadp] at hran
    obtain ⟨m, -, rfl⟩ := hran
    rfl

/-- Settles O40: of the endings without a fault only HALT's changes the run state. -/
theorem onlyHaltReachesHalted : Obligations.OnlyHaltReachesHalted := by
  unfold Obligations.OnlyHaltReachesHalted
  intro s t h
  obtain ⟨hrun, -⟩ := step_cases h
  constructor
  · intro hhalted
    obtain ⟨w, hw, hran⟩ := step_ran_of_not_faulted h (by simp [hhalted])
    rcases hran.ending.run_cases with ⟨hhalt, -, -⟩ | hsame
    · exact ⟨w, hw, opcode_of_decode hhalt⟩
    · rw [hsame, hrun] at hhalted
      cases hhalted
  · rintro ⟨w, hw, hop⟩
    rw [step_of_fetch hrun hw, decode_of_opcode_7 hop] at h
    obtain rfl := next_unique h (exec_halt s)
    rfl

/-- Settles O30: the request is an IN at the finger; with no answer the state stays, and one answer ends the wait. -/
theorem inWaitsUntilTheHostAnswers : Obligations.InWaitsUntilTheHostAnswers := by
  unfold Obligations.InWaitsUntilTheHostAnswers
  refine ⟨fun s => State.inputRequested_iff, fun s => State.waiting_iff, fun s w c r hrun hw hdecode hin => ⟨?_, ?_⟩⟩
  · rw [step_of_fetch hrun hw, hdecode, exec_inp_of_nil hin]
  · have hanswer : (s.answer r).input = [r] := by rw [State.answer_input, hin, List.nil_append]
    have hstep : step (s.answer r) = exec (decode w) (s.answer r) := step_of_fetch hrun hw
    rw [hdecode] at hstep
    exact ⟨_, hstep.trans (exec_inp_of_cons hanswer c), s.advance_advances, State.readReg_writeReg_same .., rfl⟩

/-- Settles O31: a fault and every other ending carry nothing, OUT's sends a byte and IN's takes the next answer. -/
theorem outputGrowsAndInputShrinksInOrder : Obligations.OutputGrowsAndInputShrinksInOrder := by
  unfold Obligations.OutputGrowsAndInputShrinksInOrder
  intro s t h
  obtain ⟨-, ⟨c, -, rfl⟩ | ⟨w, hw, hran⟩⟩ := step_raised_or_ran h
  · exact ⟨.inl rfl, .inl rfl⟩
  · constructor
    · exact hran.ending.output_cases.imp_right fun ⟨c, y, hout, hsent⟩ => ⟨w, c, y, hw, hout, hsent⟩
    · exact hran.ending.input_cases.imp_right fun ⟨c, r, hinp, htaken⟩ => ⟨w, c, r, hw, hinp, htaken⟩

/-- Settles O44: of the endings without a fault only LOADP's changes a length, array 0's. -/
theorem arrayLengthsStayFixed : Obligations.ArrayLengthsStayFixed := by
  unfold Obligations.ArrayLengthsStayFixed
  intro s t h n k hstep hs ht
  obtain ⟨-, ⟨c, -, rfl⟩ | ⟨w, hw, hran⟩⟩ := step_raised_or_ran hstep
  · exact .inl (Option.some.inj (ht.symm.trans hs))
  · exact (hran.ending.keeps_length hs ht).imp_right fun ⟨hzero, b, c, hloadp⟩ =>
      ⟨hzero, w, hw, opcode_of_decode hloadp⟩

/-- Settles O45: no ending takes a slot away. -/
theorem tableNeverShrinks : Obligations.TableNeverShrinks := by
  unfold Obligations.TableNeverShrinks
  intro s t h
  obtain ⟨-, ⟨c, -, rfl⟩ | ⟨w, -, hran⟩⟩ := step_raised_or_ran h
  · exact le_rfl
  · exact hran.ending.slots_length_le

/-- Settles O43: the word AMEND stored in array 0 stands where the next fetch reads. -/
theorem amendOfTheProgramIsFetched : Obligations.AmendOfTheProgramIsFetched := by
  unfold Obligations.AmendOfTheProgramIsFetched
  intro s t a b c hwf h hrun hzero hfinger
  obtain ⟨m, e, rfl⟩ := ran_of_running h hrun
  have hword := Memory.amend_wordAt_same hwf e
  rw [hzero, hfinger] at hword
  exact ⟨hword, step_of_fetch hrun hword⟩

end

section
/-! Two runs of one instruction, from states that differ only in what it does not look at: the answers still to come
(46_io.md), or registers it does not read (10_state.md R32). -/

namespace Sys2Proof.Machine

open Sys2Proof.Claims

/-- Two runs that get the same answer from their operation end related, when both of its uses and the faults do. -/
theorem conclude_map_related {α : Type} {R : State → State → Prop} {s u t : State} {r : Except Cause α}
    {f g : α → State} (hok : ∀ x, R (f x) (g x)) (herror : ∀ c, R (s.raise c) (u.raise c))
    (h : conclude s (r.map f) = .next t) : ∃ v, conclude u (r.map g) = .next v ∧ R t v := by
  rcases conclude_map_cases h with ⟨x, rfl, rfl⟩ | ⟨c, rfl, rfl⟩
  · exact ⟨_, rfl, hok x⟩
  · exact ⟨_, rfl, herror c⟩

/-! ## Answers still to come -/

theorem conclude_map_answer {α : Type} {s t : State} {r : Except Cause α} {f g : α → State} {y : Answer}
    (hg : ∀ x, g x = (f x).answer y) (h : conclude s (r.map f) = .next t) :
    conclude (s.answer y) (r.map g) = .next (t.answer y) := by
  obtain ⟨v, hv, rfl⟩ := conclude_map_related (R := fun t v => v = t.answer y) (u := s.answer y) hg (fun _ => rfl) h
  exact hv

/-- One more answer at the end of the list changes no instruction but an IN that has none. -/
theorem exec_answer {i : Instr} {s t : State} (h : exec i s = .next t) (hin : ∀ c, i = .inp c → s.input ≠ [])
    (y : Answer) : exec i (s.answer y) = .next (t.answer y) := by
  cases i with
  | cmov a b c =>
    by_cases hc : s.readReg c = 0#32
    · obtain rfl := next_unique h (exec_cmov_of_eq_zero hc a b)
      exact exec_cmov_of_eq_zero (s := s.answer y) hc a b
    · obtain rfl := next_unique h (exec_cmov_of_ne_zero hc a b)
      exact exec_cmov_of_ne_zero (s := s.answer y) hc a b
  | div a b c =>
    by_cases hc : s.readReg c = 0#32
    · obtain rfl := next_unique h (exec_div_of_eq_zero hc a b)
      exact exec_div_of_eq_zero (s := s.answer y) hc a b
    · obtain rfl := next_unique h (exec_div_of_ne_zero hc a b)
      exact exec_div_of_ne_zero (s := s.answer y) hc a b
  | out c =>
    by_cases hc : 255 < (s.readReg c).toNat
    · obtain rfl := next_unique h (exec_out_of_gt hc)
      exact exec_out_of_gt (s := s.answer y) hc
    · obtain rfl := next_unique h (exec_out_of_le (not_lt.mp hc))
      exact exec_out_of_le (s := s.answer y) (not_lt.mp hc)
  | inp c =>
    obtain ⟨r, rest, hcons⟩ := List.exists_cons_of_ne_nil (hin c rfl)
    have hlonger : (s.answer y).input = r :: (rest ++ [y]) := by rw [State.answer_input, hcons, List.cons_append]
    obtain rfl := next_unique h (exec_inp_of_cons hcons c)
    exact exec_inp_of_cons hlonger c
  | add a b c | mul a b c | nand a b c | ortho a imm | halt | illegal14 | illegal15 => cases h; rfl
  | index a b c | amend a b c | alloc b c | aband c | loadp b c => exact conclude_map_answer (fun _ => rfl) h

/-! ## Registers that are not read -/

/-- The state with the register file `R`. -/
def State.withRegs (s : State) (R : Vector Word 8) : State := { s with regs := R }

/-- A state that differs from `s` in no field but the registers. -/
theorem State.eq_withRegs {s u : State} (hfinger : u.finger = s.finger) (hrun : u.run = s.run)
    (hfault : u.fault = s.fault) (hmem : u.mem = s.mem) (houtput : u.output = s.output)
    (hcapacity : u.capacity = s.capacity) (hinput : u.input = s.input) : u = s.withRegs u.regs := by
  obtain ⟨⟩ := s
  obtain ⟨⟩ := u
  simp_all [State.withRegs]

/-- The two runs `s` to `t` and `u` to `v` end alike: in all but the registers, and in each register that one of them
touched. -/
def EndAlike (s u t v : State) : Prop :=
  (∃ Q, v = t.withRegs Q) ∧
    ∀ r : Reg, v.readReg r = t.readReg r ∨ (v.readReg r = u.readReg r ∧ t.readReg r = s.readReg r)

section
variable {s t v : State} {R : Vector Word 8}

/-- Both runs leave the registers alone. -/
theorem EndAlike.untouched (h : v = t.withRegs R) (ht : t.regs = s.regs) : EndAlike s (s.withRegs R) t v := by
  subst h
  exact ⟨⟨R, rfl⟩, fun r => .inr ⟨rfl, by rw [State.readReg, State.readReg, ht]⟩⟩

/-- Both runs write the same word to the same register, and advance. -/
theorem EndAlike.wrote (ht : t.regs = s.regs) (a : Reg) (x : Word) :
    EndAlike s (s.withRegs R) (t.writeReg a x).advance ((t.withRegs R).writeReg a x).advance := by
  refine ⟨⟨_, rfl⟩, fun r => ?_⟩
  simp only [State.advance_readReg, State.readReg_writeReg]
  split
  · exact .inl rfl
  · exact .inr ⟨rfl, by rw [State.readReg, State.readReg, ht]⟩

theorem EndAlike.raised (c : Cause) : EndAlike s (s.withRegs R) (s.raise c) ((s.withRegs R).raise c) :=
  .untouched rfl rfl

/-- An instruction looks at no register but those R32 names. -/
theorem exec_withRegs {i : Instr} (h : exec i s = .next t)
    (hread : ∀ r ∈ readRegs i, (s.withRegs R).readReg r = s.readReg r) :
    ∃ v, exec i (s.withRegs R) = .next v ∧ EndAlike s (s.withRegs R) t v := by
  cases i with
  | cmov a b c =>
    have hb := hread b (by simp [readRegs])
    have hc := hread c (by simp [readRegs])
    by_cases hz : s.readReg c = 0#32
    · obtain rfl := next_unique h (exec_cmov_of_eq_zero hz a b)
      exact ⟨_, exec_cmov_of_eq_zero (hc.trans hz) a b, .untouched rfl rfl⟩
    · obtain rfl := next_unique h (exec_cmov_of_ne_zero hz a b)
      refine ⟨_, exec_cmov_of_ne_zero (hc ▸ hz) a b, ?_⟩
      rw [hb]
      exact .wrote rfl a _
  | div a b c =>
    have hb := hread b (by simp [readRegs])
    have hc := hread c (by simp [readRegs])
    by_cases hz : s.readReg c = 0#32
    · obtain rfl := next_unique h (exec_div_of_eq_zero hz a b)
      exact ⟨_, exec_div_of_eq_zero (hc.trans hz) a b, .raised _⟩
    · obtain rfl := next_unique h (exec_div_of_ne_zero hz a b)
      refine ⟨_, exec_div_of_ne_zero (hc ▸ hz) a b, ?_⟩
      rw [hb, hc]
      exact .wrote rfl a _
  | add a b c | mul a b c | nand a b c =>
    have hb := hread b (by simp [readRegs])
    have hc := hread c (by simp [readRegs])
    cases h
    refine ⟨_, rfl, ?_⟩
    rw [hb, hc]
    exact .wrote rfl a _
  | ortho a imm => cases h; exact ⟨_, rfl, .wrote rfl a imm⟩
  | halt => cases h; exact ⟨_, rfl, .untouched rfl rfl⟩
  | illegal14 | illegal15 => cases h; exact ⟨_, rfl, .raised _⟩
  | index a b c =>
    have hb := hread b (by simp [readRegs])
    have hc := hread c (by simp [readRegs])
    simp only [exec, execIndex, hb, hc]
    exact conclude_map_related (fun x => .wrote rfl a x) .raised h
  | amend a b c =>
    have ha := hread a (by simp [readRegs])
    have hb := hread b (by simp [readRegs])
    have hc := hread c (by simp [readRegs])
    simp only [exec, execAmend, ha, hb, hc]
    refine conclude_map_related (fun _ => ?_) .raised h
    exact .untouched rfl rfl
  | alloc b c =>
    have hc := hread c (by simp [readRegs])
    simp only [exec, execAlloc, hc]
    exact conclude_map_related (fun x => .wrote (t := s.setMem x.1) rfl b x.2) .raised h
  | aband c =>
    have hc := hread c (by simp [readRegs])
    simp only [exec, execAband, hc]
    refine conclude_map_related (fun _ => ?_) .raised h
    exact .untouched rfl rfl
  | loadp b c =>
    have hb := hread b (by simp [readRegs])
    have hc := hread c (by simp [readRegs])
    simp only [exec, execLoadp, hb, hc]
    refine conclude_map_related (fun _ => ?_) .raised h
    exact .untouched rfl rfl
  | out c =>
    have hc := hread c (by simp [readRegs])
    by_cases hgt : 255 < (s.readReg c).toNat
    · obtain rfl := next_unique h (exec_out_of_gt hgt)
      exact ⟨_, exec_out_of_gt (hc ▸ hgt), .raised _⟩
    · obtain rfl := next_unique h (exec_out_of_le (not_lt.mp hgt))
      refine ⟨_, exec_out_of_le (hc ▸ not_lt.mp hgt), ?_⟩
      rw [hc]
      exact .untouched rfl rfl
  | inp c =>
    cases hin : s.input with
    | nil =>
      obtain rfl := next_unique h (exec_inp_of_nil hin c)
      exact ⟨_, exec_inp_of_nil (s := t.withRegs R) hin c, .untouched rfl rfl⟩
    | cons r rest =>
      obtain rfl := next_unique h (exec_inp_of_cons hin c)
      exact ⟨_, exec_inp_of_cons (s := s.withRegs R) hin c, .wrote (t := s.setInput rest) rfl c (answerWord r)⟩

end

end Sys2Proof.Machine

open Sys2Proof Sys2Proof.Machine

/-- Settles O32: a step that is not waiting faults at its fetch, or runs an instruction that has the answer it takes. -/
theorem laterAnswersDoNotChangeAStep : Obligations.LaterAnswersDoNotChangeAStep := by
  unfold Obligations.LaterAnswersDoNotChangeAStep
  intro s t r h hwait
  obtain ⟨hrun, ⟨hnone, rfl⟩ | ⟨w, hw, hexec⟩⟩ := step_cases h
  · exact step_of_no_fetch (s := s.answer r) hrun hnone
  · refine (step_of_fetch (s := s.answer r) hrun hw).trans (exec_answer hexec (fun c hdecode => ?_) r)
    exact State.input_ne_nil_of_not_waiting hwait hrun hw hdecode

/-- Settles O42: the other state is the first with another register file, which agrees on the registers read. -/
theorem unreadRegistersDoNotMatter : Obligations.UnreadRegistersDoNotMatter := by
  unfold Obligations.UnreadRegistersDoNotMatter
  intro i s t u h hread hfinger hrun hfault hmem houtput hcapacity hinput
  have hu := State.eq_withRegs hfinger hrun hfault hmem houtput hcapacity hinput
  generalize u.regs = R at hu
  subst hu
  obtain ⟨v, hv, ⟨Q, rfl⟩, hregs⟩ := exec_withRegs h hread
  exact ⟨_, hv, rfl, rfl, rfl, rfl, rfl, rfl, rfl, hregs⟩

end

section
/-! The canonical form's bounds and its uniqueness, reset, runs and STATUS (10_state.md, 20_memory.md,
70_reset_and_hazards.md). -/

namespace Sys2Proof.Machine

/-! ## The canonical form -/

/-- Arrays are shorter than 2^32 words (20_memory.md R51), so no word stands at the last offset. -/
theorem Memory.wordAt_last {m : Memory} (hm : m.wf) (h : Nat) : m.wordAt h (2 ^ 32 - 1) = none := by
  cases ha : m.lookup h with
  | none => exact Memory.wordAt_of_inactive ha _
  | some a =>
    have hlen := (Memory.lookup_wf hm ha).1
    rw [Memory.wordAt_of_lookup ha, if_neg (by omega)]

/-- Arrays of one length whose words agree below it agree everywhere: beyond it both read 0. -/
theorem Arr.ext_of_words {a b : Arr} (ha : a.wf) (hb : b.wf) (hlen : a.len = b.len)
    (h : ∀ i < a.len, a.read i = b.read i) : a = b := by
  refine Arr.ext_of_read ha hb hlen fun i => ?_
  by_cases hi : i < a.len
  · exact h i hi
  · rw [Arr.read_beyond ha (not_lt.mp hi), Arr.read_beyond hb (hlen ▸ not_lt.mp hi)]

/-- A handle's length and words leave no choice for its array. -/
theorem Memory.lookup_ext {m n : Memory} (hm : m.wf) (hn : n.wf) {h : Nat} (hlen : m.lenOf h = n.lenOf h)
    (hword : ∀ i, m.wordAt h i = n.wordAt h i) : m.lookup h = n.lookup h := by
  cases ha : m.lookup h with
  | none =>
    rw [Memory.lenOf_of_inactive ha] at hlen
    exact (Memory.lookup_of_lenOf_none hlen.symm).symm
  | some a =>
    rw [Memory.lenOf_of_lookup ha] at hlen
    obtain ⟨b, hb, hab⟩ := Memory.lookup_of_lenOf hlen.symm
    rw [hb, Arr.ext_of_words (Memory.lookup_wf hm ha) (Memory.lookup_wf hn hb) hab.symm fun i hi => ?_]
    have hwords := hword i
    rw [Memory.wordAt_of_lookup ha, Memory.wordAt_of_lookup hb, if_pos hi, if_pos (hab ▸ hi)] at hwords
    exact Option.some.inj hwords

/-- A slot is what its handle's lookup answers. -/
theorem Memory.getElem_slots_eq_lookup (m : Memory) {k : Nat} (hk : k < m.slots.length) :
    m.slots[k] = m.lookup (k + 1) := by
  rw [Memory.lookup_succ, List.getElem?_eq_getElem hk, Option.join_some]

theorem Memory.ext_of_lookup {m n : Memory} (hslots : m.slots.length = n.slots.length)
    (h : ∀ g, m.lookup g = n.lookup g) : m = n := by
  have harray0 : m.array0 = n.array0 := Option.some.inj (h 0)
  have hlist : m.slots = n.slots := List.ext_getElem hslots fun k hm hn => by
    rw [m.getElem_slots_eq_lookup hm, n.getElem_slots_eq_lookup hn, h]
  cases m
  cases n
  exact congrArg₂ Memory.mk harray0 hlist

/-! ## Reset -/

theorem State.resetWith_of_loads (s : State) {p : RunInputs} (h : loadRefused p = false) :
    s.resetWith p =
      { regs := p.regReset, finger := 0, run := .running, fault := .clear,
        mem := { array0 := Arr.ofWords (imageWords p.image), slots := [] },
        output := [], capacity := p.capacity, input := p.answers } := by
  simp [State.resetWith, h]

theorem State.resetWith_of_refused (s : State) {p : RunInputs} (h : loadRefused p = true) :
    s.resetWith p =
      { regs := p.regReset, finger := 0, run := .faulted, fault := { kind := 1, sub := 0, ffinger := 0, fplatter := 0 },
        mem := s.mem, output := [], capacity := p.capacity, input := p.answers } := by
  simp [State.resetWith, h, FaultRecord.clear, Cause.kind, Cause.sub]

/-- An image of `m` words that fit an array and CAPACITY loads. -/
theorem loadRefused_eq_false_of_fits {p : RunInputs} {m : Nat} (hlen : p.image.length = 4 * m) (hmax : m ≤ 2 ^ 32 - 1)
    (hcap : ∀ k, p.capacity = some k → m ≤ k) : loadRefused p = false := by
  have hwords : p.image.length / 4 = m := by omega
  exact loadRefused_eq_false_iff.mpr ⟨by omega, by omega, by rwa [hwords]⟩

/-- Each of R221's errors refuses the load. -/
theorem loadRefused_eq_true_of_error {p : RunInputs}
    (h : p.image.length % 4 ≠ 0 ∨ 4 * (2 ^ 32 - 1) < p.image.length ∨
      ∃ k, p.capacity = some k ∧ k < p.image.length / 4) : loadRefused p = true := by
  by_contra hloads
  obtain ⟨halign, hmax, hfits⟩ := loadRefused_eq_false_iff.mp (Bool.not_eq_true _ ▸ hloads)
  rcases h with hodd | hlong | ⟨k, hcap, hk⟩
  · exact hodd halign
  · omega
  · exact absurd (hfits k hcap) (not_le.mpr hk)

theorem State.resetWith_inv (s : State) {p : RunInputs} (h : loadRefused p = false) : (s.resetWith p).Inv := by
  obtain ⟨-, hmax, hfits⟩ := loadRefused_eq_false_iff.mp h
  have hlength := imageWords_length p.image
  rw [s.resetWith_of_loads h]
  constructor
  · exact ⟨Arr.ofWords_wf (by omega), nofun, Nat.two_pow_pos 32⟩
  · rw [State.withinCapacity_iff, exceeds_eq_false_iff]
    simpa [Memory.used, slotsWords, hlength] using hfits
  · exact State.recordFits_of_clear nofun rfl

/-! ## Runs -/

/-- What holds in the first state and is kept by every step holds in every state of a run. -/
theorem run_invariant {M : Host.Core} {P : M.State → Prop} (hstep : ∀ s t, P s → M.step s = .next t → P t)
    {s t : M.State} {k : Nat} (hs : P s) (h : M.run k s = .next t) : P t := by
  induction k generalizing s with
  | zero => cases h; exact hs
  | succ k ih =>
    rw [Host.Core.run] at h
    cases e : M.step s with
    | next u => rw [e] at h; exact ih (hstep s u hs e) h
    | fault r => rw [e] at h; cases h
    | refused r => rw [e] at h; cases h

/-! ## STATUS -/

theorem Cause.kind_ne_zero (c : Cause) : c.kind ≠ 0#3 := by
  cases c <;> decide

/-- STATUS in each run state, as 00_scope.md R17 numbers them. -/
theorem State.status_of_running {s : State} (h : s.run = .running) :
    s.status.runState = 0#2 ∧ s.status.haltFinger = none ∧ s.exitsZero = none := by
  simp [State.status, State.exitsZero, RunState.code, h]

theorem State.status_of_halted {s : State} (h : s.run = .halted) :
    s.status.runState = 1#2 ∧ s.status.haltFinger = some s.finger ∧ s.exitsZero = some true := by
  simp [State.status, State.exitsZero, RunState.code, h]

theorem State.status_of_faulted {s : State} (h : s.run = .faulted) :
    s.status.runState = 2#2 ∧ s.status.haltFinger = none ∧ s.exitsZero = some false := by
  simp [State.status, State.exitsZero, RunState.code, h]

/-! ## The placed word -/

/-- The word placed is the one at the finger, which array 0 then reaches. -/
theorem State.withFetchWord_fetch {s : State} (hm : s.mem.wf) (nbits w : Nat) :
    (s.withFetchWord nbits w).fetch = some (BitVec.ofNat 32 (w % 2 ^ nbits)) := by
  have hreaches : s.finger.toNat < max s.mem.array0.len (s.finger.toNat + 1) := by omega
  have hplaced : (s.withFetchWord nbits w).mem.lookup 0 =
      some (s.mem.array0.place s.finger.toNat (BitVec.ofNat 32 (w % 2 ^ nbits))) := rfl
  refine (Memory.wordAt_of_lookup hplaced s.finger.toNat).trans ?_
  rw [Arr.place_len, Arr.read_place hm.1, if_pos rfl, if_pos hreaches]

end Sys2Proof.Machine

open Sys2Proof Sys2Proof.Machine

/-- Settles O47: with no word at the last offset the fetch finds none there. -/
theorem lastOffsetIsOutOfBounds : Obligations.LastOffsetIsOutOfBounds := by
  unfold Obligations.LastOffsetIsOutOfBounds
  refine fun s hinv => ⟨Memory.wordAt_last hinv.memory, fun t hlast h => ?_⟩
  obtain ⟨hrun, -⟩ := step_cases h
  have hnone : s.fetch = none := by rw [State.fetch_eq, hlast, Memory.wordAt_last hinv.memory]
  obtain rfl := next_unique h (step_of_no_fetch hrun hnone)
  exact s.raise_takesFault .fetchOob

/-- Settles O48: each handle's array is determined by its length and words, and the table by its handles. -/
theorem equalWordsMakeEqualArrays : Obligations.EqualWordsMakeEqualArrays := by
  unfold Obligations.EqualWordsMakeEqualArrays
  intro m n hm hn hslots h
  refine Memory.ext_of_lookup hslots fun g => ?_
  obtain ⟨hlen, hword⟩ := h g
  exact Memory.lookup_ext hm hn hlen hword

/-- Settles O50: the image loads, so reset sets every field, and array 0 is the array of the image's words. -/
theorem resetSetsTheStartState : Obligations.ResetSetsTheStartState := by
  unfold Obligations.ResetSetsTheStartState
  intro s p m hlen hmax hcap
  have hloads := loadRefused_eq_false_of_fits hlen hmax hcap
  have hwords : (imageWords p.image).length = m := by
    have := imageWords_length p.image
    omega
  rw [s.resetWith_of_loads hloads]
  refine ⟨rfl, rfl, rfl, fun _ => rfl, rfl, rfl, fun h hne => ?_, congrArg some hwords,
    Memory.wordAt_of_lookup_ofWords rfl, rfl, rfl⟩
  obtain ⟨k, rfl⟩ := Nat.exists_eq_succ_of_ne_zero hne
  rfl

/-- Settles O51: each error refuses the load, and from Faulted no step is enabled. -/
theorem badImageIsALoadError : Obligations.BadImageIsALoadError := by
  unfold Obligations.BadImageIsALoadError
  intro s p herror
  rw [s.resetWith_of_refused (loadRefused_eq_true_of_error herror)]
  exact ⟨rfl, rfl, fun t => terminalRunStatesTakeNoStep _ t nofun⟩

/-- Settles O52: the image's words are few enough for an array and for CAPACITY, and the record is clear. -/
theorem everyResetEstablishesTheInvariant : Obligations.EveryResetEstablishesTheInvariant := by
  unfold Obligations.EveryResetEstablishesTheInvariant
  exact fun s _ => s.resetWith_inv

/-- Settles O53: the reset state is the reset of the default run, whose image of 0 bytes loads. -/
theorem resetStateHasTheInvariant : Obligations.ResetStateHasTheInvariant := by
  unfold Obligations.ResetStateHasTheInvariant
  exact State.reset.resetWith_inv (p := Config.defaultRun) (by decide)

/-- Settles O55: reset establishes the invariant and every step keeps it. -/
theorem everyReachedStateHasTheInvariant : Obligations.EveryReachedStateHasTheInvariant := by
  unfold Obligations.EveryReachedStateHasTheInvariant
  intro s p k t hloads h
  exact run_invariant (M := core) (fun _ _ => step_keeps_inv) (s.resetWith_inv hloads) h

/-- Settles O56: a fault's record holds its cause and finger; without a fault the record stays clear, and the run goes
on or has halted one past the HALT. -/
theorem statusTellsHowTheStepEnded : Obligations.StatusTellsHowTheStepEnded := by
  unfold Obligations.StatusTellsHowTheStepEnded
  intro s t hinv h
  refine ⟨rfl, ?_⟩
  obtain ⟨hrun, ⟨c, -, rfl⟩ | ⟨w, -, hran⟩⟩ := step_raised_or_ran h
  · obtain ⟨hcode, hfinger, hexit⟩ := State.status_of_faulted (s.raise_run c)
    exact .inr (.inr ⟨rfl, hcode, c.kind_ne_zero, rfl, hfinger, hexit⟩)
  · have hkind : t.status.record.kind = 0#3 := by
      rw [State.status_record, hran.ending.fault_eq, hinv.fault_clear hrun]
      rfl
    rcases hran.ending.run_cases with ⟨-, hhalted, hlast⟩ | hsame
    · obtain ⟨hcode, hfinger, hexit⟩ := State.status_of_halted hhalted
      exact .inr (.inl ⟨hhalted, hcode, hkind, hlast ▸ hfinger, hexit⟩)
    · obtain ⟨hcode, hfinger, hexit⟩ := State.status_of_running (hsame.trans hrun)
      exact .inl ⟨hsame.trans hrun, hcode, hkind, hfinger, hexit⟩

/-- Settles O57: the state is Running with the word at the finger, and 32 bits hold the whole of it. -/
theorem placedWordIsRunNext : Obligations.PlacedWordIsRunNext := by
  unfold Obligations.PlacedWordIsRunNext
  intro s w hm
  have hfetch := State.withFetchWord_fetch hm 32 w.toNat
  rw [Nat.mod_eq_of_lt w.isLt, BitVec.ofNat_toNat, BitVec.setWidth_eq] at hfetch
  exact step_of_fetch rfl hfetch

end
